-- ==== Sys2Proof/Word.lean ====
section
/-! DEFINITION. The value types of the GQ8 block: a byte, the 64-bit word, the 74-bit command word
(spec/00_scope.md R4, R5, R7; spec/30_encoding.md R57). Everything computed on them stands in
Decode.lean and in Machine/. -/

namespace Sys2Proof

/-- A control byte or a tag: 8 bits, every value legal (R4, R5). -/
abbrev Byte := BitVec 8

/-- The machine word, `WORD_BITS = 64`, unsigned; `BitVec` arithmetic wraps modulo 2^64 (R4, R10). -/
abbrev Word := BitVec 64

/-- A command word `CW[73:0]` (R57). -/
abbrev CommandWord := BitVec 74

end Sys2Proof
end

