-- ==== Sys2Proof/Syntax.lean ====
section
/-! DEFINITION. The four commands (one constructor per row of spec/opcode_table.json), the group
operand, the responses, and a command as a line of assembler source. -/

namespace Sys2Proof

/-- A group: the ordered sequence of 8 control bytes, one per table slot; `b0` is `group[0]` (R4, R43). -/
structure Group where
  b0 : Byte
  b1 : Byte
  b2 : Byte
  b3 : Byte
  b4 : Byte
  b5 : Byte
  b6 : Byte
  b7 : Byte
deriving DecidableEq, Repr

/-- The commands (spec/30_encoding.md R55, R56). There are exactly these four. -/
inductive Instr where
  /-- `LOAD [b0, …, b7], t`: construct a GroupQuery, the source's `from(group, tag)` (R70). -/
  | load (group : Group) (tag : Byte)
  /-- `ANYE`: is any slot empty, the source's `any_empty()` (R85). -/
  | anye
  /-- `FSTE`: the lowest empty slot, the source's `first_empty()` (R86). -/
  | fste
  /-- `NEXT`: yield the lowest remaining match and remove it, one step of the drain (R95). -/
  | next
deriving DecidableEq, Repr

/-- What one command answers (spec/10_state.md R32). Slot indices are `Fin 8` (R8). -/
inductive Response where
  /-- Of `LOAD`: the two masks just written. -/
  | masks (eq empty : Word)
  /-- Of `ANYE`: one bit. -/
  | bool (b : Bool)
  /-- Of `FSTE` and `NEXT`: `some i`, or `none`. -/
  | index (i : Option (Fin 8))
deriving DecidableEq, Repr

/-- One line of assembler source once its numbers are read (spec/30_encoding.md R64). The numbers are
as the programmer wrote them; `SourceLine.wellFormed` says when they are operands. -/
inductive SourceLine where
  | load (bytes : List Nat) (tag : Nat)
  | anye
  | fste
  | next
deriving DecidableEq, Repr

end Sys2Proof
end

