-- ==== Sys2Proof/Machine/Operands.lean ====
section
/-! DEFINITION. Operands: the lanes of a word, the byte of a slot, and the two words `LOAD` builds from
its operands (spec/00_scope.md R7, R12; spec/20_memory.md R43; spec/40_load.md R70). -/

namespace Sys2Proof

/-- `lane(w, i) = w[8i+7 : 8i]` (R7). -/
def lane (w : Word) (i : Fin 8) : Byte := w.extractLsb' (8 * i.val) 8

/-- The bit position of the high bit of lane `i`: 7, 15, …, 63 (R7). -/
def laneHighPos (i : Fin 8) : Nat := 8 * i.val + 7

/-- The high bit of lane `i`: lane `i`'s flag in a mask (R7, R20). -/
def flagged (w : Word) (i : Fin 8) : Bool := w.getLsbD (laneHighPos i)

/-- `group[i]` (R43). -/
def Group.get (g : Group) (i : Fin 8) : Byte :=
  match i with
  | 0 => g.b0
  | 1 => g.b1
  | 2 => g.b2
  | 3 => g.b3
  | 4 => g.b4
  | 5 => g.b5
  | 6 => g.b6
  | 7 => g.b7

/-- The group word `gw`: `group[0]` in the least significant byte, on every host (R43, R44). -/
def Group.word (g : Group) : Word :=
  g.b7 ++ g.b6 ++ g.b5 ++ g.b4 ++ g.b3 ++ g.b2 ++ g.b1 ++ g.b0

/-- The group whose byte `i` is lane `i` of a word (R58). -/
def Group.ofWord (w : Word) : Group :=
  { b0 := lane w 0, b1 := lane w 1, b2 := lane w 2, b3 := lane w 3,
    b4 := lane w 4, b5 := lane w 5, b6 := lane w 6, b7 := lane w 7 }

/-- `tile(b)`: byte `b` in every lane (R12). -/
def tile (b : Byte) : Word := b ++ b ++ b ++ b ++ b ++ b ++ b ++ b

/-- `cmp = gw XOR tile(tag)`; lane `i` is `group[i] XOR tag` (R70). -/
def Group.cmp (g : Group) (tag : Byte) : Word := g.word ^^^ tile tag

end Sys2Proof
end

