-- ==== Sys2Proof/Config.lean ====
section
/-! DEFINITION. What an implementation fixes, and the values the spec leaves open. The open values have
no body: no proof can learn them, and a statement holds whatever they are. -/

namespace Sys2Proof

/-- FREE VALUE (log entry 1). The content of `eq_mask` after the reset event number `n` (number 0 is
power-up): "unspecified (any 64-bit value; a model must not assume 0 nor the invariant of rule R23)"
(spec/10_state.md R33). One value per event: two resets need not leave the same bits. -/
opaque Config.resetEqMask : Nat → Word

/-- FREE VALUE (log entry 1). The content of `empty_mask` after the reset event number `n` (R33). -/
opaque Config.resetEmptyMask : Nat → Word

/-- `GROUP_WIDTH`: lanes of a word, slots of a group. Fixed, no parameter (spec/00_scope.md R4). -/
def Config.groupWidth : Nat := 8

/-- The default of the OPEN parameter `N_INST` (R6): how many blocks a system holds. The model of a
system takes the number as an argument (Machine/System.lean). -/
def Config.nInstDefault : Nat := 1

end Sys2Proof
end

