-- ==== Sys2Proof/WellFormed.lean ====
section
/-! DEFINITION. Well-formedness. An `Instr` carries its widths in its types and every value of every
field is legal (spec/30_encoding.md R58, R59), so its check has nothing to refuse. What a programmer
writes can be ill-formed: a list that is not 8 entries long, or a number that is no byte (R64). -/

namespace Sys2Proof

/-- A command whose fields are legal: all of them (R58: "Every value of both fields is legal"). -/
def Instr.wellFormed : Instr → Bool
  | .load _ _ => true
  | .anye => true
  | .fste => true
  | .next => true

/-- A number that is a byte: 0 to 255 (R64, R70). -/
def isByte (n : Nat) : Bool := n < 256

/-- A source line that is a command: `LOAD` has as many bytes as a group has slots (R4: the group width
is fixed) and a tag byte. -/
def SourceLine.wellFormed : SourceLine → Bool
  | .load bytes tag => bytes.length == Config.groupWidth && bytes.all isByte && isByte tag
  | .anye => true
  | .fste => true
  | .next => true

end Sys2Proof
end

