-- ==== Sys2Proof/Decode.lean ====
section
/-! DEFINITION. The command word: decoder and encoder (spec/30_encoding.md R57 to R60, R63). Every one
of the 2^74 command words decodes; what is no command word (a number of more than 74 bits) is rejected
by name. -/

namespace Sys2Proof

/-- `op = CW[73:72]` (R57). -/
def opField (w : CommandWord) : BitVec 2 := w.extractLsb' 72 2

/-- `tag = CW[71:64]`, an unsigned byte (R57, R58). -/
def tagField (w : CommandWord) : Byte := w.extractLsb' 64 8

/-- `group = CW[63:0]`, the group word (R57, R58). -/
def groupField (w : CommandWord) : Word := w.extractLsb' 0 64

/-- The fields `CW[71:0]` that `ANYE`, `FSTE` and `NEXT` ignore (R60). -/
def ignoredField (w : CommandWord) : BitVec 72 := w.extractLsb' 0 72

/-- The decoder (R63), total on the 2^74 words (R59). Where `op` is not `00` the rest is ignored (R60). -/
def decode (w : CommandWord) : Instr :=
  if opField w = 0b00#2 then .load (Group.ofWord (groupField w)) (tagField w)
  else if opField w = 0b01#2 then .anye
  else if opField w = 0b10#2 then .fste
  else .next

/-- The encoder: the canonical word of a command (R57, R60). -/
def encode : Instr → CommandWord
  | .load g t => 0b00#2 ++ t ++ g.word
  | .anye => 0b01#2 ++ 0#72
  | .fste => 0b10#2 ++ 0#72
  | .next => 0b11#2 ++ 0#72

/-- A canonical word: one the encoder emits (R60). -/
def isCanonical (w : CommandWord) : Bool := opField w == 0b00#2 || ignoredField w == 0#72

/-- Why a number is no command. -/
inductive DecodeError where
  /-- It has a bit above `CW[73]`: it is no command word (R57: one length, 74 bits). -/
  | widerThanCommandWord
deriving DecidableEq, Repr

/-- The decoder on any number: the commands are the numbers below 2^74. -/
def decodeNat (n : Nat) : Except DecodeError Instr :=
  if n < 2 ^ 74 then .ok (decode (BitVec.ofNat 74 n)) else .error .widerThanCommandWord

/-- The number a table word stands for: its low `nbits` bits, every bit above them 0. -/
def tableNumber (nbits w : Nat) : Nat := w % 2 ^ nbits

/-- What the decoder reads from an instruction whose bits are `w`, bit 0 being `CW[0]`
(spec/opcode_table.json numbers the bits as the spec does). -/
def decodeTableWord (nbits w : Nat) : Option Instr :=
  match decodeNat (tableNumber nbits w) with
  | .ok i => some i
  | .error _ => none

end Sys2Proof
end

