-- ==== Sys2Proof/Machine/Flags.lean ====
section
/-! DEFINITION. The flag computations: the two masks of lane flags, and reading and clearing the lowest
flag of one (spec/00_scope.md R10 to R16). The block has no status flags or condition codes
(spec/10_state.md R27); the flags here are the lane flags of the masks. -/

namespace Sys2Proof

/-- `HI`: the high bit of every lane (R11). -/
def hi : Word := 0x8080808080808080#64

/-- `ONES`: 0x01 in every lane (R11; spec/90_conflicts.md C1: the subtrahend is this, not the integer 1). -/
def ones : Word := 0x0101010101010101#64

/-- `zbd(v)`, zero-byte detection by ONE 64-bit subtraction whose borrow runs from lane to lane (R13).
The false positives this gives are part of the result and are not filtered out (spec/40_load.md R73). -/
def zbd (v : Word) : Word := (v - ones) &&& ~~~v &&& hi

/-- `eq_mask` of a `LOAD` (R70). -/
def matchFlags (g : Group) (tag : Byte) : Word := zbd (g.cmp tag)

/-- `empty_mask` of a `LOAD`: the high bits of the group word itself (R70, R74). -/
def emptyFlags (g : Group) : Word := g.word &&& hi

/-- `ctz(w)`: the least `k` in 0..63 with `w[k] = 1` (R14). DESIGN CHOICE (log entry 6): `ctz 0` is 64;
no rule applies `ctz` to 0 and no meaning below does. -/
def ctz (w : Word) : Nat := ((List.range 64).find? fun k => w.getLsbD k).getD 64

/-- `slot_of(p) = p div 8`, truncating (R15; spec/90_conflicts.md C3). A slot index has 3 bits, `p[5:3]`. -/
def slotOf (p : Nat) : Fin 8 := Fin.ofNat 8 (p / 8)

/-- `clear_lowest(w) = w AND (w - 1)` (R16). -/
def clearLowest (w : Word) : Word := w &&& (w - 1#64)

/-- The slot of the lowest flag of a mask, `none` when it has none: the answer of `FSTE` on
`empty_mask` (R86) and of `NEXT` on `eq_mask` (R95). -/
def lowestSlot (mask : Word) : Option (Fin 8) :=
  if mask = 0#64 then none else some (slotOf (ctz mask))

end Sys2Proof
end

