-- ==== Sys2Proof/Machine/State.lean ====
section
/-! DEFINITION. The state of one GQ8 block, its reset, and the reasons a step can stop. The
architectural state is the first three fields (spec/10_state.md R20); the other three are the model's
own: the two ends of the command port and the counter of the free values (log entries 1, 2, 3). -/

namespace Sys2Proof.Machine

/-- What the host presents to the block (R31, R141): a command word, or a reset event. A power-down of
the platform is a reset event too (spec/60_exceptions.md R120, spec/70_reset_and_hazards.md R130). -/
inductive Input where
  | command (w : CommandWord)
  | reset
deriving DecidableEq, Repr

/-- One GQ8 block. -/
structure State where
  /-- `q_valid`, 1 bit: the masks hold a constructed GroupQuery (R24). -/
  qValid : Bool
  /-- `eq_mask`, 64 bits: the match flags not yet drained, one per lane (R21). -/
  eqMask : Word
  /-- `empty_mask`, 64 bits: the empty flags, one per lane (R22). -/
  emptyMask : Word
  /-- MODEL'S OWN (log entry 2). The response port: what the last command answered since reset. No
  command reads it (R27: a response is not retained by the block). -/
  resp : Option Response
  /-- MODEL'S OWN (log entry 3). What the host has presented and the block has not yet taken, oldest
  first (R50: commands take effect one at a time, in the order the host issues them). -/
  pending : List Input
  /-- MODEL'S OWN (log entry 1). How many reset events, power-up included, have drawn their free mask
  values from Config. -/
  resetCount : Nat
deriving DecidableEq, Repr

/-- The block right after power-up (R33): `q_valid` is 0, the masks are free values, and nothing is
presented yet. -/
def State.reset : State where
  qValid := false
  eqMask := Config.resetEqMask 0
  emptyMask := Config.resetEmptyMask 0
  resp := none
  pending := []
  resetCount := 1

/-- The hardware's faults: none. "The set of synchronous exceptions is empty"
(spec/60_exceptions.md R110), so no constructor stands here and no step can end in a fault. -/
inductive Fault where
deriving DecidableEq, Repr

/-- Why a step is given no meaning. -/
inductive Refusal where
  /-- Raised by `exec` alone, for an instruction that has no meaning in the model yet. Safe: nothing
  is claimed of it. (No instruction is refused so today.) -/
  | notModelled (mnemonic : String)
  /-- Raised by `ANYE`, `FSTE` and `NEXT` while `q_valid = 0` (R118, R90, R102): the spec gives the
  command no meaning there and says the model refuses. Safe: the model asserts nothing the hardware
  might contradict. -/
  | queryBeforeLoad
deriving DecidableEq, Repr

end Sys2Proof.Machine
end

