-- ==== Sys2Proof/Machine/Ops.lean ====
section
/-! DEFINITION. The named operations on the registers and on the two ends of the command port. All
reads and writes of the state by the meanings and by the step go through these. There is no memory and
no address space (spec/20_memory.md R40), and no exception to take or return from
(spec/60_exceptions.md R110, R114). -/

namespace Sys2Proof.Machine

/-- Install a GroupQuery: both masks and `q_valid <- 1` (spec/40_load.md R70). -/
def installQuery (eq empty : Word) (s : State) : State :=
  { s with qValid := true, eqMask := eq, emptyMask := empty }

/-- `eq_mask <- w` (spec/42_drain.md R95). -/
def writeEqMask (w : Word) (s : State) : State := { s with eqMask := w }

/-- `resp <- r` (spec/00_scope.md R9). -/
def respond (r : Response) (s : State) : State := { s with resp := some r }

/-- The admission test of the three queries: with `q_valid = 1` the command runs, with `q_valid = 0` it
is refused (spec/60_exceptions.md R118). -/
def admitQuery (s : State) (run : State → State) : Host.Outcome State Fault Refusal :=
  if s.qValid then .next (run s) else .refused .queryBeforeLoad

/-- A reset event (spec/70_reset_and_hazards.md R130, spec/10_state.md R33): `q_valid <- 0`, both masks
become free values, drawn afresh at each event; what the host has still to present is untouched. DESIGN
CHOICE (log entry 2): the response port is emptied. -/
def takeReset (s : State) : State :=
  { s with
    qValid := false
    eqMask := Config.resetEqMask s.resetCount
    emptyMask := Config.resetEmptyMask s.resetCount
    resp := none
    resetCount := s.resetCount + 1 }

/-- Take the oldest input the host has presented, if there is one (R50). -/
def takeInput (s : State) : Option (Input × State) :=
  match s.pending with
  | [] => none
  | i :: rest => some (i, { s with pending := rest })

/-- The host presents an input ahead of everything it has still to present. -/
def presentFirst (i : Input) (s : State) : State := { s with pending := i :: s.pending }

/-- The host presents inputs after everything it has still to present. -/
def present (is : List Input) (s : State) : State := { s with pending := s.pending ++ is }

/-- A step with no input presented: the block waits, and nothing changes. DESIGN CHOICE (log entry 3). -/
def idle (s : State) : State := s

end Sys2Proof.Machine
end

