-- ==== Sys2Proof/Machine/Drain.lean ====
section
/-! DEFINITION. The draining step: `NEXT` (spec/42_drain.md). -/

namespace Sys2Proof.Machine

/-- One step of the drain (R95): answer the slot of the lowest match flag, computed before the
clearing, and clear that flag; with no flag left, answer `none` and change no register. -/
def drainStep (s : State) : State :=
  let answered := respond (.index (lowestSlot s.eqMask)) s
  if s.eqMask = 0#64 then answered else writeEqMask (clearLowest s.eqMask) answered

/-- `NEXT` (R95); refused with `q_valid = 0` (R102). -/
def execNext (s : State) : Host.Outcome State Fault Refusal :=
  admitQuery s drainStep

end Sys2Proof.Machine
end

