-- ==== Sys2Proof/Machine/EmptyQueries.lean ====
section
/-! DEFINITION. The queries on the empty mask: `ANYE` and `FSTE` (spec/41_empty_queries.md). -/

namespace Sys2Proof.Machine

/-- `ANYE` (R85): `resp <- bool(empty_mask ≠ 0)`; refused with `q_valid = 0` (R90). -/
def execAnye (s : State) : Host.Outcome State Fault Refusal :=
  admitQuery s fun s => respond (.bool (s.emptyMask != 0#64)) s

/-- `FSTE` (R86): the slot of the lowest empty flag, or `none`; refused with `q_valid = 0` (R90). -/
def execFste (s : State) : Host.Outcome State Fault Refusal :=
  admitQuery s fun s => respond (.index (lowestSlot s.emptyMask)) s

end Sys2Proof.Machine
end

