-- ==== Sys2Proof/Machine/Load.lean ====
section
/-! DEFINITION. The constructing family: `LOAD` (spec/40_load.md). -/

namespace Sys2Proof.Machine

/-- `LOAD [b0, …, b7], t` (R70): always admitted, cannot fail (R81), keeps nothing of its operands but
the masks (spec/10_state.md R25), and overwrites a held query (R80). -/
def execLoad (group : Group) (tag : Byte) (s : State) : Host.Outcome State Fault Refusal :=
  let eq := matchFlags group tag
  let empty := emptyFlags group
  .next (respond (.masks eq empty) (installQuery eq empty s))

end Sys2Proof.Machine
end

