-- ==== Sys2Proof/Machine/Dispatch.lean ====
section
/-! DEFINITION. One arm per command: each calls its meaning. -/

namespace Sys2Proof.Machine

def exec (i : Instr) (s : State) : Host.Outcome State Fault Refusal :=
  match i with
  | .load group tag => Sys2Proof.Machine.execLoad group tag s
  | .anye => Sys2Proof.Machine.execAnye s
  | .fste => Sys2Proof.Machine.execFste s
  | .next => Sys2Proof.Machine.execNext s

end Sys2Proof.Machine
end

