-- ==== Sys2Proof/Machine/Step.lean ====
section
/-! DEFINITION. One step of the block: take the oldest input the host has presented and perform it
whole (spec/10_state.md R26, R32; spec/20_memory.md R50). There is no program counter and no fetch from
memory: the command sequence is the host's. -/

namespace Sys2Proof.Machine

/-- One step. A reset event takes effect between commands (spec/70_reset_and_hazards.md R130). -/
def step (s : State) : Host.Outcome State Fault Refusal :=
  match takeInput s with
  | none => .next (idle s)
  | some (.reset, t) => .next (takeReset t)
  | some (.command w, t) => exec (decode w) t

/-- The state in which the host presents the table word next (log entry 4). -/
def State.withFetchWord (s : State) (nbits w : Nat) : State :=
  presentFirst (.command (BitVec.ofNat 74 (tableNumber nbits w))) s

end Sys2Proof.Machine
end

