-- ==== Sys2Proof/Machine/Assembler.lean ====
section
/-! DEFINITION. The assembler syntax (spec/30_encoding.md R64): a line of source text, as a list of
characters, to a command; a command and a response to their text. -/

namespace Sys2Proof

/-- Why a line is no command. -/
inductive AsmError where
  /-- The line begins with none of the four mnemonics (R65: there are no pseudo-instructions). -/
  | unknownMnemonic
  /-- The operands are not `[b0, …], t`, or a command without operands has some. -/
  | badOperands
  /-- An operand is no decimal or `0x` hexadecimal number. -/
  | badNumber
  /-- Not 8 control bytes, or a number that is no byte. -/
  | illFormed
deriving DecidableEq, Repr

/-- The pieces of a line. -/
inductive Token where
  | word (cs : List Char)
  | openBracket
  | closeBracket
  | comma
deriving DecidableEq, Repr

/-- Characters that separate and stand for nothing. DESIGN CHOICE (log entry 7). -/
def isBlank (c : Char) : Bool := c == ' ' || c == '\t' || c == '\r' || c == '\n'

/-- The line before its comment: `;` starts one (R64). -/
def stripComment (cs : List Char) : List Char := cs.takeWhile (· != ';')

/-- Close the word collected so far (its characters in reverse), if there is one. -/
def flushWord (acc : List Char) (rest : List Token) : List Token :=
  if acc.isEmpty then rest else .word acc.reverse :: rest

/-- Cut characters into tokens; `acc` is the word under way, reversed. -/
def tokenize : List Char → List Char → List Token
  | [], acc => flushWord acc []
  | c :: cs, acc =>
    if isBlank c then flushWord acc (tokenize cs [])
    else if c == '[' then flushWord acc (.openBracket :: tokenize cs [])
    else if c == ']' then flushWord acc (.closeBracket :: tokenize cs [])
    else if c == ',' then flushWord acc (.comma :: tokenize cs [])
    else tokenize cs (c :: acc)

/-- A decimal or hexadecimal digit's value, in a base. Capital and small letters are both read. -/
def digitValue (base : Nat) (c : Char) : Option Nat :=
  let v :=
    if '0' ≤ c ∧ c ≤ '9' then c.toNat - '0'.toNat
    else if 'a' ≤ c ∧ c ≤ 'f' then c.toNat - 'a'.toNat + 10
    else if 'A' ≤ c ∧ c ≤ 'F' then c.toNat - 'A'.toNat + 10
    else 16
  if v < base then some v else none

/-- Digits in a base, most significant first, onto the number read so far. -/
def readDigits (base : Nat) : List Char → Nat → Option Nat
  | [], n => some n
  | c :: cs, n =>
    match digitValue base c with
    | some v => readDigits base cs (n * base + v)
    | none => none

/-- A number: `0x` and hexadecimal digits, or decimal digits; at least one digit (R64). -/
def readNumber : List Char → Option Nat
  | [] => none
  | '0' :: 'x' :: [] => none
  | '0' :: 'x' :: c :: cs => readDigits 16 (c :: cs) 0
  | c :: cs => readDigits 10 (c :: cs) 0

/-- The operands of `LOAD` after the opening bracket: numbers with commas between them, the closing
bracket, a comma, the tag. `bytes` is what has been read, reversed. -/
def readOperands : List Token → List Nat → Except AsmError SourceLine
  | .word b :: .comma :: rest, bytes =>
    match readNumber b with
    | some n => readOperands rest (n :: bytes)
    | none => .error .badNumber
  | [.word b, .closeBracket, .comma, .word t], bytes =>
    match readNumber b, readNumber t with
    | some n, some tag => .ok (.load (n :: bytes).reverse tag)
    | _, _ => .error .badNumber
  | _, _ => .error .badOperands

/-- A command that takes no operand. -/
def bare (rest : List Token) (line : SourceLine) : Except AsmError SourceLine :=
  if rest.isEmpty then .ok line else .error .badOperands

/-- The tokens of a line (R56, R64): `none` for a line that holds no command. -/
def readLine : List Token → Except AsmError (Option SourceLine)
  | [] => .ok none
  | .word m :: rest =>
    if m = ['L', 'O', 'A', 'D'] then
      match rest with
      | .openBracket :: operands => (readOperands operands []).map some
      | _ => .error .badOperands
    else if m = ['A', 'N', 'Y', 'E'] then (bare rest .anye).map some
    else if m = ['F', 'S', 'T', 'E'] then (bare rest .fste).map some
    else if m = ['N', 'E', 'X', 'T'] then (bare rest .next).map some
    else .error .unknownMnemonic
  | _ => .error .unknownMnemonic

/-- A well-formed source line as a command: the list is in slot order, `b0` is `group[0]` (R64). -/
def SourceLine.toInstr (l : SourceLine) : Except AsmError Instr :=
  if l.wellFormed then
    match l with
    | .load [b0, b1, b2, b3, b4, b5, b6, b7] t =>
      .ok (.load
        { b0 := BitVec.ofNat 8 b0, b1 := BitVec.ofNat 8 b1, b2 := BitVec.ofNat 8 b2,
          b3 := BitVec.ofNat 8 b3, b4 := BitVec.ofNat 8 b4, b5 := BitVec.ofNat 8 b5,
          b6 := BitVec.ofNat 8 b6, b7 := BitVec.ofNat 8 b7 } (BitVec.ofNat 8 t))
    | .load _ _ => .error .illFormed
    | .anye => .ok .anye
    | .fste => .ok .fste
    | .next => .ok .next
  else .error .illFormed

/-- Assemble one line of text; `none` for a line that holds no command (R64). -/
def assemble (text : List Char) : Except AsmError (Option Instr) :=
  match readLine (tokenize (stripComment text) []) with
  | .ok (some l) => l.toInstr.map some
  | .ok none => .ok none
  | .error e => .error e

/-- One hexadecimal digit, as the spec writes them. -/
def hexDigit (v : BitVec 4) : Char :=
  if v.toNat < 10 then Char.ofNat ('0'.toNat + v.toNat) else Char.ofNat ('A'.toNat + (v.toNat - 10))

/-- A byte as `0x` and two hexadecimal digits. -/
def byteText (b : Byte) : List Char :=
  ['0', 'x', hexDigit (b.extractLsb' 4 4), hexDigit (b.extractLsb' 0 4)]

/-- A word as `0x` and 16 hexadecimal digits (spec/00_scope.md R7). -/
def wordText (w : Word) : List Char :=
  '0' :: 'x' :: (List.range 16).map fun k => hexDigit (w.extractLsb' (4 * (15 - k)) 4)

/-- A command as a line of assembler source (R64). -/
def Instr.text : Instr → List Char
  | .load g t =>
    ['L', 'O', 'A', 'D', ' ', '['] ++ byteText g.b0 ++ [',', ' '] ++ byteText g.b1 ++ [',', ' ']
      ++ byteText g.b2 ++ [',', ' '] ++ byteText g.b3 ++ [',', ' '] ++ byteText g.b4 ++ [',', ' ']
      ++ byteText g.b5 ++ [',', ' '] ++ byteText g.b6 ++ [',', ' '] ++ byteText g.b7
      ++ [']', ',', ' '] ++ byteText t
  | .anye => ['A', 'N', 'Y', 'E']
  | .fste => ['F', 'S', 'T', 'E']
  | .next => ['N', 'E', 'X', 'T']

/-- A response as the text after `->` (R64). -/
def Response.text : Response → List Char
  | .masks eq empty =>
    ['e', 'q', '='] ++ wordText eq ++ [',', ' ', 'e', 'm', 'p', 't', 'y', '='] ++ wordText empty
  | .bool b => [if b then '1' else '0']
  | .index none => ['n', 'o', 'n', 'e']
  | .index (some i) => ['s', 'o', 'm', 'e', '('] ++ [Char.ofNat ('0'.toNat + i.val)] ++ [')']

end Sys2Proof
end

