-- ==== Sys2Proof/Machine/ResponseWord.lean ====
section
/-! DEFINITION. The response word `RSP`: a response as bits on the response port, exactly as wide as the
command's response is (spec/30_encoding.md R61, R62). -/

namespace Sys2Proof

/-- The response port's three shapes (R61). -/
inductive ResponseWord where
  /-- `RSP[127:0]`, of `LOAD`. -/
  | wide (w : BitVec 128)
  /-- `RSP[0]`, of `ANYE`. -/
  | bit (w : BitVec 1)
  /-- `RSP[3:0]`, of `FSTE` and `NEXT`. -/
  | slot (w : BitVec 4)
deriving DecidableEq, Repr

/-- An option of a slot index as 4 bits: `some(i) = 1 ‖ i[2:0]`, `none = 0b0000` (R62). -/
def encodeSlot : Option (Fin 8) → BitVec 4
  | none => 0#4
  | some i => 1#1 ++ BitVec.ofFin (w := 3) i

/-- A response on the port (R61): `eq_mask` in `RSP[63:0]`, `empty_mask` in `RSP[127:64]`. -/
def Response.encode : Response → ResponseWord
  | .masks eq empty => .wide (empty ++ eq)
  | .bool b => .bit (BitVec.ofBool b)
  | .index i => .slot (encodeSlot i)

/-- A 4-bit answer read back; the values 0x1 to 0x7 are never produced and are refused (R62). -/
def decodeSlot (w : BitVec 4) : Option (Option (Fin 8)) :=
  if w.getLsbD 3 then some (some (w.extractLsb' 0 3).toFin)
  else if w = 0#4 then some none
  else none

/-- A response word read back, as the host reads it. -/
def ResponseWord.decode : ResponseWord → Option Response
  | .wide w => some (.masks (w.extractLsb' 0 64) (w.extractLsb' 64 64))
  | .bit w => some (.bool (w == 1#1))
  | .slot w => (decodeSlot w).map .index

end Sys2Proof
end

