-- ==== Sys2Proof/Machine/Sequence.lean ====
section
/-! DEFINITION. What a host sees of a sequence of commands given to one block: the state it reaches, the
answers it gives, and the drained sequence (spec/20_memory.md R50, spec/42_drain.md R100). The loop that
issues the commands is host software (spec/30_encoding.md R65). -/

namespace Sys2Proof.Machine

/-- Commands performed one at a time in the order given, up to the first refusal (R50). -/
def execAll : List Instr → State → Host.Outcome State Fault Refusal
  | [], s => .next s
  | i :: rest, s =>
    match exec i s with
    | .next t => execAll rest t
    | .fault f => .fault f
    | .refused r => .refused r

/-- The answer of one command at a state, `none` when the command is refused. -/
def answer (i : Instr) (s : State) : Option Response :=
  match exec i s with
  | .next t => t.resp
  | .fault _ => none
  | .refused _ => none

/-- The indices that up to `n` `NEXT` commands return before the first `none`, the `none` not included. -/
def drainFrom : Nat → State → List (Fin 8)
  | 0, _ => []
  | n + 1, s =>
    match exec .next s with
    | .next t =>
      match t.resp with
      | some (.index (some i)) => i :: drainFrom n t
      | _ => []
    | .fault _ => []
    | .refused _ => []

/-- `NEXT` commands after which a drain has always met its `none` (R65, R98). -/
def drainBound : Nat := 9

/-- `drained(group, tag)` (R100): issue the `LOAD` at `s`, then `NEXT` until the first `none`. -/
def drained (group : Group) (tag : Byte) (s : State) : List (Fin 8) :=
  match exec (.load group tag) s with
  | .next t => drainFrom drainBound t
  | .fault _ => []
  | .refused _ => []

end Sys2Proof.Machine
end

