-- ==== Sys2Proof/Machine/System.lean ====
section
/-! DEFINITION. A system of `N_INST` blocks (spec/00_scope.md R6, spec/60_exceptions.md R121):
independent copies of the one-block machine, which share nothing. Each block keeps its own refusal mark
(R118, spec/70_reset_and_hazards.md R141), and goes on with the inputs presented to it whatever has
become of the others. -/

namespace Sys2Proof.Machine

/-- One block of a system, with the refusal mark of its own run (R118). -/
inductive Block where
  /-- No command of the block's run has been refused: the run is good so far (R141). -/
  | running (s : State)
  /-- The run is marked, and a `LOAD` or a reset event since the last refusal has written every register
  again (spec/93_implementation_defined.md U5; the reset event DEDUCED, log entry 11). -/
  | marked (s : State)
  /-- The run is marked, and nothing is said of the registers or of the answer since the refused command
  (R118; spec/90_conflicts.md C8). What the host has still to present and the count of free values are
  the model's own and are kept. -/
  | lost (pending : List Input) (resetCount : Nat)
deriving DecidableEq, Repr

/-- The registers of a block, where the spec says what they hold. -/
def Block.state? : Block → Option State
  | .running s => some s
  | .marked s => some s
  | .lost _ _ => none

/-- What the host has presented to a block and the block has not taken. -/
def Block.pending : Block → List Input
  | .running s => s.pending
  | .marked s => s.pending
  | .lost pending _ => pending

/-- The refusal mark (R118). -/
def Block.isMarked : Block → Bool
  | .running _ => false
  | .marked _ => true
  | .lost _ _ => true

/-- A block whose step was refused: the refused input is taken and the registers are lost (C8). -/
def loseRegisters (s : State) : Block := .lost s.pending.tail s.resetCount

/-- A state to take the inputs of a lost block from. Its registers are those of a block without a
query, so that every query is refused; a `LOAD` and a reset event write every one of them, and the
answer, and read none. -/
def withoutRegisters (pending : List Input) (resetCount : Nat) : State :=
  { State.reset with pending := pending, resetCount := resetCount }

/-- One step of a block. A refused command marks it for the rest of its run and leaves its registers
unspecified, until a `LOAD` or a reset event writes them again (R118, U5; the reset event DEDUCED, log entry 11). -/
def Block.step : Block → Block
  | .running s =>
    match Sys2Proof.Machine.step s with
    | .next t => .running t
    | .fault f => nomatch f
    | .refused _ => loseRegisters s
  | .marked s =>
    match Sys2Proof.Machine.step s with
    | .next t => .marked t
    | .fault f => nomatch f
    | .refused _ => loseRegisters s
  | .lost [] resetCount => .lost [] resetCount
  | .lost (i :: rest) resetCount =>
    match Sys2Proof.Machine.step (withoutRegisters (i :: rest) resetCount) with
    | .next t => .marked t
    | .fault f => nomatch f
    | .refused _ => .lost rest resetCount

/-- `n` steps of a block by itself. -/
def Block.steps : Nat → Block → Block
  | 0, b => b
  | n + 1, b => Block.steps n b.step

/-- The host presents inputs to a block, after everything it has still to present. -/
def Block.present (is : List Input) : Block → Block
  | .running s => .running (Sys2Proof.Machine.present is s)
  | .marked s => .marked (Sys2Proof.Machine.present is s)
  | .lost pending resetCount => .lost (pending ++ is) resetCount

/-- The blocks of a system, by position. The positions are the model's: no block has an identifier
visible to the commands (R121). -/
abbrev System := List Block

/-- Block `k` takes one step; no other block is read or written (R121), and none stops another.
DESIGN CHOICE (log entry 5): at a position that holds no block nothing steps. -/
def System.stepAt (k : Nat) (sys : System) : System := sys.modify k Block.step

/-- The host of block `k` presents inputs to it. -/
def System.presentAt (k : Nat) (is : List Input) (sys : System) : System :=
  sys.modify k (Block.present is)

/-- The blocks step in an interleaving: the positions of the steps, in order (R121: "scheduled in any
interleaving"). -/
def System.runSchedule : List Nat → System → System
  | [], sys => sys
  | k :: ks, sys => System.runSchedule ks (sys.stepAt k)

/-- A system of `n` blocks that have just been powered up; `n` is the parameter `N_INST`, at least 1
(R6). The masks, and how many free values each block has drawn, are left open: two blocks need not
hold the same bits. -/
def System.AtReset (n : Nat) (sys : System) : Prop :=
  0 < n ∧ sys.length = n ∧
    ∀ b ∈ sys, ∃ s, b = .running s ∧ s.qValid = false ∧ s.resp = none ∧ s.pending = []

end Sys2Proof.Machine
end

