-- ==== Sys2Proof/Safety.lean ====
section
/-! DEFINITION. What counts as a good run, the host's one duty that the block checks, and the mask
invariant (spec/70_reset_and_hazards.md R132, R141; spec/10_state.md R23). -/

namespace Sys2Proof.Machine

/-- A run is good if it contains no refused command (R141). `Host.Core.run` stops at the first refused
command and keeps it as the outcome of every longer run: that is the refusal mark of
spec/60_exceptions.md R118. -/
def GoodRun (s : State) : Prop := ∀ n r, Host.Core.run core n s ≠ .refused r

/-- The host's duty (R132): after a reset the first command is a `LOAD`. `valid` is `q_valid` where the
inputs begin. -/
def hostDisciplined : Bool → List Input → Bool
  | _, [] => true
  | _, .reset :: rest => hostDisciplined false rest
  | valid, .command w :: rest =>
    match decode w with
    | .load _ _ => hostDisciplined true rest
    | .anye => valid && hostDisciplined valid rest
    | .fste => valid && hostDisciplined valid rest
    | .next => valid && hostDisciplined valid rest

/-- A mask with flags at lane high bits only (R23). -/
abbrev OnlyHighBits (w : Word) : Prop := w &&& ~~~hi = 0#64

/-- The mask invariant: while a query is held, only lane high bits are set in the masks (R23). While
`q_valid = 0` the masks are unspecified and nothing is promised of them (R33). -/
abbrev State.MaskInv (s : State) : Prop :=
  s.qValid = true → OnlyHighBits s.eqMask ∧ OnlyHighBits s.emptyMask

end Sys2Proof.Machine
end

