-- ==== Sys2Proof/Certificates/Slice0/Obligations.lean ====
section
/-! DEFINITION. The statements for the provers. First the few words they are said in, then one
definition a statement, in the order of the spec's files. -/

namespace Sys2Proof.Machine

/-- Commands none of which is a `LOAD`. -/
def NoLoad (is : List Instr) : Prop := ∀ i ∈ is, ∀ g t, i ≠ .load g t

/-- How many bits of a word are set. -/
def setBits (w : Word) : Nat := (List.range 64).countP fun k => w.getLsbD k

/-- The slots a mask flags, lowest first. -/
def flaggedSlots (w : Word) : List (Fin 8) := (List.finRange 8).filter fun i => flagged w i

/-- Two states that differ at most in masks no query is held in: the masks of a block with
`q_valid = 0` are unspecified (spec/10_state.md R33). -/
def SameButUnspecifiedMasks (s t : State) : Prop :=
  s.qValid = t.qValid ∧ s.resp = t.resp ∧ s.pending = t.pending ∧ s.resetCount = t.resetCount ∧
    (s.qValid = true → s.eqMask = t.eqMask ∧ s.emptyMask = t.emptyMask)

/-- Two outcomes that agree up to unspecified masks. -/
def SameOutcomeButUnspecifiedMasks : Host.Outcome State Fault Refusal →
    Host.Outcome State Fault Refusal → Prop
  | .next s, .next t => SameButUnspecifiedMasks s t
  | .fault a, .fault b => a = b
  | .refused a, .refused b => a = b
  | _, _ => False

/-- A GroupQuery with no 64-bit word in it: the match slots still to drain and the empty slots, each
ascending. The block without words, which the word-level block is compared with. -/
structure SlotQuery where
  found : List (Fin 8)
  empties : List (Fin 8)
deriving DecidableEq, Repr

/-- The borrow chain on bytes alone (spec/40_load.md R71): is lane `i` flagged, for the lanes from a
list of differences `c_i`, lowest first; `borrow` is the borrow into the first of them. -/
def borrowFlags : List Byte → Bool → List Bool
  | [], _ => []
  | c :: cs, borrow =>
    let f := c == 0#8 || (c == 1#8 && borrow)
    f :: borrowFlags cs f

/-- The slots whose entry in a list of flags is set. -/
def slotsOf (fs : List Bool) : List (Fin 8) := (List.finRange 8).filter fun i => fs.getD i.val false

/-- `LOAD` on bytes alone (R71, R74): no word, no subtraction, one byte at a time. -/
def SlotQuery.load (g : Group) (t : Byte) : SlotQuery where
  found := slotsOf (borrowFlags ((List.finRange 8).map fun i => g.get i ^^^ t) false)
  empties := (List.finRange 8).filter fun i => 0x80 ≤ (g.get i).toNat

/-- The word with the flags of the given slots. -/
def maskOf (is : List (Fin 8)) : Word := is.foldl (fun w i => w ||| (1#64 <<< laneHighPos i)) 0#64

/-- One command on a block without words: the query it leaves and its answer, `none` where the command
is refused. -/
def slotStep (q : Option SlotQuery) : Instr → Option (Option SlotQuery × Response)
  | .load g t =>
    let q' := SlotQuery.load g t
    some (some q', .masks (maskOf q'.found) (maskOf q'.empties))
  | .anye => q.map fun v => (some v, .bool (!v.empties.isEmpty))
  | .fste => q.map fun v => (some v, .index v.empties.head?)
  | .next => q.map fun v => (some { v with found := v.found.tail }, .index v.found.head?)

/-- A block of words seen as a block without words: `none` while no query is held
(spec/10_state.md R20: the state as an option). -/
def slotView (s : State) : Option SlotQuery :=
  if s.qValid then some { found := flaggedSlots s.eqMask, empties := flaggedSlots s.emptyMask }
  else none

end Sys2Proof.Machine

open Sys2Proof Sys2Proof.Machine

/-! ### Primitives (spec/00_scope.md) -/

/-- R11, R12: the constants, and `tile(b)` as the word with `b` in every lane, as a product that wraps
nowhere. -/
def Obligations.TileReplicatesTheByte : Prop :=
  hi = 0x8080808080808080#64 ∧ ones = 0x0101010101010101#64 ∧
  (∀ (b : Byte) (i : Fin 8), lane (tile b) i = b) ∧
  (∀ b : Byte, tile b = b.setWidth 64 * ones ∧ (tile b).toNat = b.toNat * ones.toNat) ∧
  tile 0x80#8 = hi ∧ tile 0x01#8 = ones ∧ tile 0x00#8 = 0#64 ∧ tile 0xFF#8 = 0xFFFFFFFFFFFFFFFF#64

/-- R13: `zbd` is one wrapping subtraction and two ANDs, and sets lane high bits only. -/
def Obligations.ZbdIsTheWordFormula : Prop :=
  ∀ v : Word, zbd v = (v - 0x0101010101010101#64) &&& ~~~v &&& 0x8080808080808080#64 ∧
    zbd v &&& ~~~hi = 0#64

/-- R14: `ctz(w)` of a non-zero word is the least position that holds a 1. -/
def Obligations.CtzIsTheLeastSetBit : Prop :=
  ∀ w : Word, w ≠ 0#64 →
    ctz w < 64 ∧ w.getLsbD (ctz w) = true ∧ ∀ k, k < ctz w → w.getLsbD k = false

/-- R15: `slot_of` is truncating division by 8, bits 5..3 of the position, and recovers the lane of a
lane high bit. -/
def Obligations.SlotOfTruncates : Prop :=
  (∀ p : Fin 64, (slotOf p.val).val = p.val / 8 ∧
    (slotOf p.val).val = ((BitVec.ofNat 6 p.val).extractLsb' 3 3).toNat) ∧
  ∀ i : Fin 8, slotOf (laneHighPos i) = i

/-- R16: `clear_lowest` clears bit `ctz(w)` and changes no other bit; of 0 it is 0. -/
def Obligations.ClearLowestClearsOneBit : Prop :=
  (∀ w : Word, clearLowest w = w &&& (w - 1#64)) ∧
  (∀ w : Word, w ≠ 0#64 →
    ∀ k, (clearLowest w).getLsbD k = (w.getLsbD k && decide (k ≠ ctz w))) ∧
  clearLowest 0#64 = 0#64

/-! ### State, lifetime and reset (spec/10_state.md, spec/70_reset_and_hazards.md) -/

/-- R33 with log entry 1 (the model's choice of a FREE value for each mask) and log entries 2 and 3:
what reset and a reset event leave. The masks are the values Config has no body for, so nothing is
known of them. -/
def Obligations.ResetLeavesFreeMasks : Prop :=
  State.reset.qValid = false ∧ State.reset.resp = none ∧ State.reset.pending = [] ∧
  State.reset.eqMask = Config.resetEqMask 0 ∧ State.reset.emptyMask = Config.resetEmptyMask 0 ∧
  ∀ s rest, s.pending = .reset :: rest →
    ∃ t, step s = .next t ∧ t.qValid = false ∧ t.eqMask = Config.resetEqMask s.resetCount ∧
      t.emptyMask = Config.resetEmptyMask s.resetCount ∧ t.resp = none ∧
      t.resetCount = s.resetCount + 1

/-- R130: a reset event, taken between commands, leaves `q_valid` 0 and loses the held query, drained
or not: every query on it is refused. What the host presents next is untouched. -/
def Obligations.ResetEventLosesTheHeldQuery : Prop :=
  ∀ s rest, s.pending = .reset :: rest →
    ∃ t, step s = .next t ∧ t.qValid = false ∧ t.pending = rest ∧
      exec .anye t = .refused .queryBeforeLoad ∧ exec .fste t = .refused .queryBeforeLoad ∧
      exec .next t = .refused .queryBeforeLoad

/-- R24: `q_valid` is 0 after reset and after a reset event, set by every `LOAD`, cleared by no command, and while it is 0 the
three queries are refused. -/
def Obligations.QValidIsSetByLoadAndClearedByNoCommand : Prop :=
  State.reset.qValid = false ∧
  (∀ s rest, s.pending = .reset :: rest → ∃ t, step s = .next t ∧ t.qValid = false) ∧
  (∀ g t s, ∃ s', exec (.load g t) s = .next s' ∧ s'.qValid = true) ∧
  (∀ i s s', exec i s = .next s' → s.qValid = true → s'.qValid = true) ∧
  (∀ i s, s.qValid = false → NoLoad [i] → exec i s = .refused .queryBeforeLoad)

/-- The mask invariant holds at reset (R23; there `q_valid` is 0 and nothing is promised of the masks). -/
def Obligations.MaskInvariantHoldsAtReset : Prop := State.reset.MaskInv

/-- R23: every step keeps the mask invariant, from every state that meets it. -/
def Obligations.StepKeepsMaskInvariant : Prop :=
  ∀ s t : State, s.MaskInv → step s = .next t → t.MaskInv

/-- R23: along every run, whenever `q_valid = 1` each mask has bits at lane high positions only, at
most 8 of them, and the lowest set bit of a non-zero mask is at one of those eight positions. -/
def Obligations.MasksHoldOnlyLaneFlags : Prop :=
  ∀ (n : Nat) (s t : State), s.MaskInv → Host.Core.run core n s = .next t → t.qValid = true →
    ∀ m, (m = t.eqMask ∨ m = t.emptyMask) →
      m &&& ~~~hi = 0#64 ∧ (∀ k, m.getLsbD k = true → ∃ i : Fin 8, k = laneHighPos i) ∧
      setBits m ≤ 8 ∧ (m ≠ 0#64 → ∃ i : Fin 8, ctz m = laneHighPos i)

/-- R25: the block keeps nothing of a `LOAD`'s operands but the two masks: operands that give the same
masks leave the same state. -/
def Obligations.OperandsAreNotRetained : Prop :=
  ∀ g g' t t' s, matchFlags g t = matchFlags g' t' → emptyFlags g = emptyFlags g' →
    exec (.load g t) s = exec (.load g' t') s

/-- R33: the masks of a block with `q_valid = 0` are unobservable: two runs that differ in nothing but
them answer alike for ever, and agree wholly once a query is held. -/
def Obligations.UnspecifiedMasksAreUnobservable : Prop :=
  ∀ n s t, SameButUnspecifiedMasks s t →
    SameOutcomeButUnspecifiedMasks (Host.Core.run core n s) (Host.Core.run core n t)

/-- What each command leaves unchanged (R20, R21, R22): none touches the host's end of the port;
`ANYE` and `FSTE` change the answer only; `NEXT` changes `eq_mask` beside it, and only by clearing bits
of it. (There is no memory: spec/20_memory.md R40.) -/
def Obligations.CommandFrames : Prop :=
  ∀ i s t, exec i s = .next t →
    (t.pending = s.pending ∧ t.resetCount = s.resetCount) ∧
    (NoLoad [i] → t.qValid = s.qValid ∧ t.emptyMask = s.emptyMask) ∧
    ((i = .anye ∨ i = .fste) → t.eqMask = s.eqMask) ∧
    (i = .next → (∀ k, t.eqMask.getLsbD k = true → s.eqMask.getLsbD k = true) ∧
      (s.eqMask = 0#64 → t.eqMask = s.eqMask))

/-! ### Bytes, lanes, order (spec/20_memory.md) -/

/-- R43: control byte `group[i]` is lane `i` of the group word, little-endian, its bit 7 at bit
`8i + 7`. -/
def Obligations.GroupWordIsLittleEndian : Prop :=
  ∀ g : Group,
    g.word = g.get 7 ++ g.get 6 ++ g.get 5 ++ g.get 4 ++ g.get 3 ++ g.get 2 ++ g.get 1 ++ g.get 0 ∧
    (∀ i : Fin 8, lane g.word i = g.get i ∧ (g.get i).getLsbD 7 = g.word.getLsbD (8 * i.val + 7)) ∧
    g.word.toNat = ((List.finRange 8).map fun i => (g.get i).toNat * 2 ^ (8 * i.val)).sum

/-- R49: `ANYE`, `FSTE` and `LOAD` are idempotent; `NEXT` is not, until `eq_mask` is 0. -/
def Obligations.OnlyNextIsNotIdempotent : Prop :=
  (∀ i s, (i = .anye ∨ i = .fste) → s.qValid = true →
    ∃ t, exec i s = .next t ∧ exec i t = .next t ∧
      t.qValid = s.qValid ∧ t.eqMask = s.eqMask ∧ t.emptyMask = s.emptyMask) ∧
  (∀ g t s u, ∃ s' u', exec (.load g t) s = .next s' ∧ exec (.load g t) s' = .next s' ∧
    exec (.load g t) u = .next u' ∧ s'.qValid = u'.qValid ∧ s'.eqMask = u'.eqMask ∧
    s'.emptyMask = u'.emptyMask ∧ s'.resp = u'.resp) ∧
  (∀ s, s.qValid = true →
    ∃ t, exec .next s = .next t ∧ (exec .next t = .next t ↔ s.eqMask = 0#64))

/-- R50 (a): the commands a host presents take effect one at a time, whole, in the order presented: a
run of the block over them is the commands performed in that order, to the first refusal. -/
def Obligations.PresentedCommandsRunInOrder : Prop :=
  ∀ (is : List Instr) (rest : List Input) (s : State),
    s.pending = is.map (fun i => .command (encode i)) ++ rest →
      Host.Core.run core is.length s = execAll is { s with pending := rest }

/-! ### Command and response words (spec/30_encoding.md) -/

/-- R58: every group byte and the tag stand in the word as they are, at their places. -/
def Obligations.OperandFieldsStandInTheWord : Prop :=
  (∀ w g t, decode w = .load g t →
    (∀ i : Fin 8, g.get i = w.extractLsb' (8 * i.val) 8) ∧ t = w.extractLsb' 64 8 ∧
      t.getLsbD 7 = w.getLsbD 71) ∧
  (∀ g t, ∃ w, decode w = .load g t ∧ g.word = w.extractLsb' 0 64)

/-- R59: every one of the 2^74 command words decodes to a command, and none traps: with a query held,
each completes. -/
def Obligations.EveryCommandWordIsACommand : Prop :=
  ∀ n, n < 2 ^ 74 → ∃ i, decodeNat n = .ok i ∧ i.wellFormed = true ∧
    ∀ s : State, s.qValid = true → ∃ t, step (s.withFetchWord 74 n) = .next t

/-- R60: the fields that `ANYE`, `FSTE` and `NEXT` ignore, the canonical words, and decode followed by
encode as the identity on canonical words alone. -/
def Obligations.IgnoredFieldsHaveNoEffect : Prop :=
  (∀ v w : CommandWord, opField v = opField w → opField v ≠ 0b00#2 →
    decode v = decode w ∧
      ∀ s, step (presentFirst (.command v) s) = step (presentFirst (.command w) s)) ∧
  encode .anye = 0x1000000000000000000#74 ∧ encode .fste = 0x2000000000000000000#74 ∧
  encode .next = 0x3000000000000000000#74 ∧
  (∀ w : CommandWord, encode (decode w) = w ↔ (opField w = 0b00#2 ∨ ignoredField w = 0#72))

/-- R61: the response word of each command. -/
def Obligations.ResponseWordsOfTheCommands : Prop :=
  (∀ g t s, ∃ s' r w, exec (.load g t) s = .next s' ∧ s'.resp = some r ∧ r.encode = .wide w ∧
    w.extractLsb' 0 64 = s'.eqMask ∧ w.extractLsb' 64 64 = s'.emptyMask) ∧
  (∀ s, s.qValid = true → ∃ r w, answer .anye s = some r ∧ r.encode = .bit w ∧
    (w = 1#1 ↔ s.emptyMask ≠ 0#64)) ∧
  (∀ s i m, s.qValid = true → (i = .fste ∧ m = s.emptyMask ∨ i = .next ∧ m = s.eqMask) →
    ∃ r w, answer i s = some r ∧ r.encode = .slot w ∧ (w.getLsbD 3 = true ↔ m ≠ 0#64) ∧
      (w.extractLsb' 0 3).toNat = if m = 0#64 then 0 else ctz m / 8)

/-- R62: an option on the port. -/
def Obligations.SlotAnswerEncoding : Prop :=
  (∀ i : Fin 8, encodeSlot (some i) = 1#1 ++ BitVec.ofNat 3 i.val ∧
    (encodeSlot (some i)).toNat = 8 + i.val) ∧
  encodeSlot none = 0b0000#4 ∧
  ∀ o, ¬ (1 ≤ (encodeSlot o).toNat ∧ (encodeSlot o).toNat ≤ 7)

/-- R61, R62: the host reads every response back from its word. -/
def Obligations.ResponseWordReadsBack : Prop :=
  ∀ r : Response, r.encode.decode = some r

/-- R63: the decoder selects by `CW AND mask = match`, the four rows are disjoint and exhaustive, and
`LOAD` takes its fields. -/
def Obligations.DecodeFollowsMatchAndMask : Prop :=
  ∀ w : CommandWord,
    let m := w &&& 0x3000000000000000000#74
    (m = 0x0000000000000000000#74 ↔
      decode w = .load (Group.ofWord (w.extractLsb' 0 64)) (w.extractLsb' 64 8)) ∧
    (m = 0x1000000000000000000#74 ↔ decode w = .anye) ∧
    (m = 0x2000000000000000000#74 ↔ decode w = .fste) ∧
    (m = 0x3000000000000000000#74 ↔ decode w = .next) ∧
    (m = 0x0000000000000000000#74 ∨ m = 0x1000000000000000000#74 ∨
      m = 0x2000000000000000000#74 ∨ m = 0x3000000000000000000#74)

/-- Words written out in spec/95_test_vectors.md section 2.5 decode to their commands. -/
def Obligations.SampleWordsDecode : Prop :=
  decode 0x0050000008009058005#74 =
    .load ⟨5#8, 0x80#8, 5#8, 9#8, 0x80#8, 0#8, 0#8, 0#8⟩ 5#8 ∧
  decode 0x0420907060504030201#74 = .load ⟨1#8, 2#8, 3#8, 4#8, 5#8, 6#8, 7#8, 9#8⟩ 0x42#8 ∧
  decode 0x1FFFFFFFFFFFFFFFFFF#74 = .anye ∧ decode 0x20000000000000000AB#74 = .fste ∧
  decode 0x3420907060504030201#74 = .next

/-- R57, R58, R60, R63: decoding an encoded command gives it back, whatever its operands. -/
def Obligations.DecodeOfEncodeIsTheCommand : Prop :=
  ∀ i : Instr, i.wellFormed = true → decode (encode i) = i

/-- A step performs the command the oldest presented word decodes to, on the state with that word taken,
and adds nothing around it (R26, R32). -/
def Obligations.StepRunsTheDecodedCommand : Prop :=
  ∀ s w rest, s.pending = .command w :: rest →
    (decode w).wellFormed = true ∧ step s = exec (decode w) { s with pending := rest }

/-- The word placed by `withFetchWord` is the one the next step runs. How a word is placed, and how a
number of `nbits` bits is read as a word (bits above them 0, none where it is wider than a command word),
are the model's choices: log entries 4 and 10. -/
def Obligations.PlacedTableWordRuns : Prop :=
  ∀ s nbits w i, decodeTableWord nbits w = some i → step (s.withFetchWord nbits w) = exec i s

/-- With nothing presented a step changes nothing (the model's choice: log entry 3). -/
def Obligations.IdleStepChangesNothing : Prop :=
  ∀ s : State, s.pending = [] → step s = .next s

/-- R64: the text of a command, with or without a comment after it, assembles to that command. The
layout of the text is the model's (log entry 7). -/
def Obligations.AssemblerReadsEveryCommand : Prop :=
  ∀ (i : Instr) (comment : List Char),
    assemble i.text = .ok (some i) ∧ assemble (i.text ++ ';' :: comment) = .ok (some i)

/-! ### LOAD (spec/40_load.md) -/

/-- R70: `LOAD`, its encoding, its pseudocode, its admission whatever `q_valid` is. -/
def Obligations.LoadConstructsTheQuery : Prop :=
  ∀ (g : Group) (tag : Byte) (s : State),
    let gw : Word := g.b7 ++ g.b6 ++ g.b5 ++ g.b4 ++ g.b3 ++ g.b2 ++ g.b1 ++ g.b0
    let cmp : Word := gw ^^^ (tag ++ tag ++ tag ++ tag ++ tag ++ tag ++ tag ++ tag)
    let eq := (cmp - 0x0101010101010101#64) &&& ~~~cmp &&& 0x8080808080808080#64
    let empty := gw &&& 0x8080808080808080#64
    decode (0b00#2 ++ tag ++ gw) = .load g tag ∧
    exec (.load g tag) s = .next { s with
      qValid := true, eqMask := eq, emptyMask := empty, resp := some (.masks eq empty) }

/-- R71: the exact lane law of `eq_mask`: the recurrence over the borrow, lane by lane; the flag of a
lane as the borrow out of it; the flagged lanes as the true matches and the unbroken runs of
`tag XOR 0x01` above them; and no other bit. -/
def Obligations.EqMaskLaneLaw : Prop :=
  ∀ (g : Group) (tag : Byte) (s : State), ∃ s', exec (.load g tag) s = .next s' ∧
    (flagged s'.eqMask 0 = true ↔ g.get 0 ^^^ tag = 0#8) ∧
    (∀ i : Fin 7, flagged s'.eqMask i.succ = true ↔
      (g.get i.succ ^^^ tag = 0#8 ∨
        (g.get i.succ ^^^ tag = 1#8 ∧ flagged s'.eqMask i.castSucc = true))) ∧
    (∀ i : Fin 8, flagged s'.eqMask i = true ↔
      (g.cmp tag).toNat % 2 ^ (8 * i.val + 8) < ones.toNat % 2 ^ (8 * i.val + 8)) ∧
    (∀ i : Fin 8, flagged s'.eqMask i = true ↔
      ∃ j : Fin 8, j ≤ i ∧ g.get j = tag ∧ ∀ k : Fin 8, j < k → k ≤ i → g.get k = tag ^^^ 1#8) ∧
    (∀ k, s'.eqMask.getLsbD k = true → ∃ i : Fin 8, k = laneHighPos i)

/-- R72: no false negatives, in the mask and in the drained sequence. -/
def Obligations.NoFalseNegatives : Prop :=
  ∀ (g : Group) (tag : Byte) (s : State) (i : Fin 8), g.get i = tag →
    ∃ s', exec (.load g tag) s = .next s' ∧ flagged s'.eqMask i = true ∧ i ∈ drained g tag s

/-- R73: the false positives exactly, with every consequence the rule draws, and none of them hidden
from the drain. -/
def Obligations.FalsePositivesExactly : Prop :=
  ∀ (g : Group) (tag : Byte) (s : State), ∃ s', exec (.load g tag) s = .next s' ∧
    (∀ i : Fin 8, (flagged s'.eqMask i = true ∧ g.get i ≠ tag) ↔
      (g.get i = tag ^^^ 1#8 ∧ ∃ j : Fin 8, j.val + 1 = i.val ∧ flagged s'.eqMask j = true)) ∧
    (flagged s'.eqMask 0 = true → g.get 0 = tag) ∧
    (∀ j i : Fin 8, j ≤ i → g.get j = tag →
      (∀ k : Fin 8, j < k → k ≤ i → g.get k = tag ^^^ 1#8) → flagged s'.eqMask i = true) ∧
    ((∀ i : Fin 8, g.get i ≠ tag ^^^ 1#8) →
      ∀ i : Fin 8, flagged s'.eqMask i = true ↔ g.get i = tag) ∧
    ((∀ i : Fin 8, g.get i ≠ tag) → s'.eqMask = 0#64) ∧
    (∀ i : Fin 8, flagged s'.eqMask i = true → g.get i ≠ tag → ∃ j : Fin 8, j < i ∧ g.get j = tag) ∧
    (List.finRange 8).countP (fun i => flagged s'.eqMask i && g.get i != tag) ≤ 7 ∧
    (∀ i : Fin 8, flagged s'.eqMask i = true → i ∈ drained g tag s)

/-- R74: `empty_mask` is exact, lane by lane, whatever the tag. -/
def Obligations.EmptyMaskIsExact : Prop :=
  ∀ (g : Group) (tag : Byte) (s : State), ∃ s', exec (.load g tag) s = .next s' ∧
    (∀ i : Fin 8, flagged s'.emptyMask i = true ↔ 0x80 ≤ (g.get i).toNat) ∧
    (∀ k, s'.emptyMask.getLsbD k = true → ∃ i : Fin 8, k = laneHighPos i)

/-- R75: a tag below 0x80 matches no empty slot, a tag from 0x80 up matches empty slots only, and the
tag 0x80 matches every canonically empty byte. -/
def Obligations.MatchesAndEmptiesByTheTagsHighBit : Prop :=
  ∀ (g : Group) (tag : Byte) (s : State), ∃ s', exec (.load g tag) s = .next s' ∧
    (tag.toNat < 0x80 → s'.eqMask &&& s'.emptyMask = 0#64 ∧
      ∀ i : Fin 8, flagged s'.eqMask i = true → (g.get i).toNat < 0x80) ∧
    (0x80 ≤ tag.toNat → s'.eqMask &&& ~~~s'.emptyMask = 0#64 ∧
      ∀ i : Fin 8, flagged s'.eqMask i = true → 0x80 ≤ (g.get i).toNat) ∧
    (tag = 0x80#8 → ∀ i : Fin 8, g.get i = 0x80#8 → flagged s'.eqMask i = true)

/-- R77: what a `LOAD` leaves and answers, and the drained sequence, depend on its operands only. -/
def Obligations.LoadIsPure : Prop :=
  ∀ (g : Group) (tag : Byte) (s t : State), ∃ s' t',
    exec (.load g tag) s = .next s' ∧ exec (.load g tag) t = .next t' ∧
    s'.qValid = t'.qValid ∧ s'.eqMask = t'.eqMask ∧ s'.emptyMask = t'.emptyMask ∧
    s'.resp = t'.resp ∧ drained g tag s = drained g tag t

/-- R78: the tag 0 is an ordinary operand: it flags the zero bytes and the runs of 0x01 directly above
one. -/
def Obligations.TagZeroFlagsZeroBytes : Prop :=
  ∀ (g : Group) (s : State), ∃ s', exec (.load g 0x00#8) s = .next s' ∧
    tile 0x00#8 = 0#64 ∧ g.cmp 0x00#8 = g.word ∧ s'.eqMask = zbd g.word ∧
    ∀ i : Fin 8, flagged s'.eqMask i = true ↔
      ∃ j : Fin 8, j ≤ i ∧ g.get j = 0x00#8 ∧ ∀ k : Fin 8, j < k → k ≤ i → g.get k = 0x01#8

/-- R10, R79: the one subtraction of `LOAD` wraps modulo 2^64; the borrow out of bit 63, which there is
exactly when lane 7 is flagged, is dropped. -/
def Obligations.TheSubtractionWraps : Prop :=
  ∀ (g : Group) (tag : Byte) (s : State), ∃ s', exec (.load g tag) s = .next s' ∧
    (g.cmp tag - ones).toNat = (g.cmp tag).toNat + (if flagged s'.eqMask 7 then 2 ^ 64 else 0) - ones.toNat ∧
    ((g.cmp tag).toNat < ones.toNat ↔ flagged s'.eqMask 7 = true) ∧
    0#64 - ones = 0xFEFEFEFEFEFEFEFF#64

/-- R80: a `LOAD` over a held query, whatever has been drained of it, overwrites both masks, and the
new drain starts from its first match. -/
def Obligations.LoadOverAHeldQueryStartsAfresh : Prop :=
  ∀ (g : Group) (tag : Byte) (is : List Instr) (s s' : State), execAll is s = .next s' →
    ∃ t, exec (.load g tag) s' = .next t ∧ t.eqMask = matchFlags g tag ∧
      t.emptyMask = emptyFlags g ∧
      answer .next t = some (.index (drained g tag s).head?) ∧
      drainFrom drainBound t = drained g tag s

/-- R139: no latency: the command right after a `LOAD` sees the new masks. -/
def Obligations.NextCommandSeesTheNewMasks : Prop :=
  ∀ (g : Group) (tag : Byte) (s : State), ∃ s', exec (.load g tag) s = .next s' ∧
    answer .next s' = some (.index (lowestSlot (zbd (g.word ^^^ tile tag)))) ∧
    answer .anye s' = some (.bool (decide (g.word &&& hi ≠ 0#64))) ∧
    answer .fste s' = some (.index (lowestSlot (g.word &&& hi)))

/-! ### ANYE and FSTE (spec/41_empty_queries.md) -/

/-- R85: `ANYE`. -/
def Obligations.AnyeAnswersWhetherASlotIsEmpty : Prop :=
  (∀ low : BitVec 72, decode (0b01#2 ++ low) = .anye) ∧
  (∀ s, s.qValid = true →
    exec .anye s = .next { s with resp := some (.bool (decide (s.emptyMask ≠ 0#64))) }) ∧
  (∀ s, s.qValid = false → exec .anye s = .refused .queryBeforeLoad)

/-- R86: `FSTE`; where the masks hold lane flags only, its answer is the lowest empty slot. -/
def Obligations.FsteAnswersTheLowestEmptySlot : Prop :=
  (∀ low : BitVec 72, decode (0b10#2 ++ low) = .fste) ∧
  (∀ s, s.qValid = true → exec .fste s = .next { s with resp := some (.index
    (if s.emptyMask = 0#64 then none else some (slotOf (ctz s.emptyMask)))) }) ∧
  (∀ s : State, s.MaskInv → s.qValid = true → ∀ i : Fin 8,
    answer .fste s = some (.index (some i)) ↔
      (flagged s.emptyMask i = true ∧ ∀ j : Fin 8, j < i → flagged s.emptyMask j = false)) ∧
  (∀ s, s.qValid = false → exec .fste s = .refused .queryBeforeLoad)

/-- R87: the two queries are pure reads, and their answers stand until the next `LOAD`, whatever other
commands run in between (which all complete). -/
def Obligations.EmptyAnswersStandUntilTheNextLoad : Prop :=
  ∀ (is : List Instr) (s : State), s.qValid = true → NoLoad is →
    ∃ t, execAll is s = .next t ∧ answer .anye t = answer .anye s ∧
      answer .fste t = answer .fste s ∧
      ∀ q, (q = .anye ∨ q = .fste) → ∃ u, exec q t = .next u ∧
        u.eqMask = t.eqMask ∧ u.emptyMask = t.emptyMask ∧ u.qValid = t.qValid

/-- R88: the two queries agree. -/
def Obligations.AnyeAndFsteAgree : Prop :=
  ∀ s : State, s.qValid = true →
    (answer .anye s = some (.bool true) ↔ ∃ i, answer .fste s = some (.index (some i))) ∧
    (answer .anye s = some (.bool false) ↔ answer .fste s = some (.index none))

/-- R89: the two queries in terms of the bytes of the most recent `LOAD`. -/
def Obligations.EmptyAnswersInTermsOfTheBytes : Prop :=
  ∀ (g : Group) (tag : Byte) (is : List Instr) (s : State), NoLoad is →
    ∃ t, execAll (.load g tag :: is) s = .next t ∧
      (answer .anye t = some (.bool true) ↔ ∃ i : Fin 8, 0x80 ≤ (g.get i).toNat) ∧
      (∀ i : Fin 8, answer .fste t = some (.index (some i)) ↔
        (0x80 ≤ (g.get i).toNat ∧ ∀ j : Fin 8, j < i → (g.get j).toNat < 0x80)) ∧
      (answer .fste t = some (.index none) ↔ ∀ i : Fin 8, (g.get i).toNat < 0x80)

/-! ### NEXT (spec/42_drain.md) -/

/-- R95: `NEXT`; where the masks hold lane flags only, it yields the lowest flagged slot and clears that
flag alone. -/
def Obligations.NextYieldsAndClearsTheLowestMatch : Prop :=
  (∀ low : BitVec 72, decode (0b11#2 ++ low) = .next) ∧
  (∀ s, s.qValid = true → exec .next s = .next (
    if s.eqMask = 0#64 then { s with resp := some (.index none) }
    else { s with
      resp := some (.index (some (slotOf (ctz s.eqMask))))
      eqMask := s.eqMask &&& (s.eqMask - 1#64) })) ∧
  (∀ s : State, s.MaskInv → s.qValid = true → s.eqMask ≠ 0#64 → ∃ t i,
    exec .next s = .next t ∧ t.resp = some (.index (some i)) ∧ flagged s.eqMask i = true ∧
    (∀ j : Fin 8, j < i → flagged s.eqMask j = false) ∧
    ∀ j : Fin 8, flagged t.eqMask j = (flagged s.eqMask j && decide (j ≠ i))) ∧
  (∀ s, s.qValid = false → exec .next s = .refused .queryBeforeLoad)

/-- R96: the drained indices are strictly increasing, after a `LOAD` and from every state that meets the
mask invariant. -/
def Obligations.DrainIsStrictlyAscending : Prop :=
  (∀ (g : Group) (tag : Byte) (s : State), (drained g tag s).Pairwise (· < ·)) ∧
  ∀ (n : Nat) (s : State), s.MaskInv → (drainFrom n s).Pairwise (· < ·)

/-- R97: once `NEXT` has answered `none`, every further `NEXT` does, whatever other commands but `LOAD`
run in between, and changes no register. -/
def Obligations.ExhaustionIsSticky : Prop :=
  ∀ (is : List Instr) (s s' : State), exec .next s = .next s' → s'.resp = some (.index none) →
    NoLoad is → s'.eqMask = 0#64 ∧ ∃ t u, execAll is s' = .next t ∧ exec .next t = .next u ∧
      u.resp = some (.index none) ∧ t.eqMask = 0#64 ∧ u.eqMask = t.eqMask ∧
      u.emptyMask = t.emptyMask ∧ u.qValid = t.qValid

/-- R98: after a `LOAD`, as many `NEXT` commands answer an index as `eq_mask` has bits, 0 to 8, and
every `NEXT` after those answers `none`; so the ninth does. -/
def Obligations.DrainLengthIsTheNumberOfFlags : Prop :=
  ∀ (g : Group) (tag : Byte) (s : State), ∃ s', exec (.load g tag) s = .next s' ∧
    (drained g tag s).length = setBits s'.eqMask ∧ setBits s'.eqMask ≤ 8 ∧
    (∀ k, ∃ t, execAll (.load g tag :: List.replicate k .next) s = .next t ∧
      (answer .next t = some (.index none) ↔ setBits s'.eqMask ≤ k)) ∧
    ∃ t, execAll (.load g tag :: List.replicate 8 .next) s = .next t ∧
      answer .next t = some (.index none)

/-- R99: no command but `LOAD` puts a flag back, no index is yielded twice between two `LOAD`s, and a
`LOAD` of the same operands gives the same sequence again. -/
def Obligations.DrainCannotBeRestarted : Prop :=
  (∀ (is : List Instr) (s t : State), NoLoad is → execAll is s = .next t →
    t.eqMask &&& ~~~s.eqMask = 0#64) ∧
  (∀ (is : List Instr) (s s' t : State) (i : Fin 8), s.MaskInv → exec .next s = .next s' →
    s'.resp = some (.index (some i)) → NoLoad is → execAll is s' = .next t →
    answer .next t ≠ some (.index (some i))) ∧
  (∀ (g : Group) (tag : Byte) (is : List Instr) (s t : State),
    execAll (.load g tag :: is) s = .next t → drained g tag t = drained g tag s)

/-- R100: the drained sequence is the list, in increasing order, of the lanes `LOAD` flagged; it holds
every true match, every other member sits directly above a member and holds `tag XOR 0x01`, and it is a
function of the operands alone. -/
def Obligations.DrainedIsTheListOfFlaggedLanes : Prop :=
  ∀ (g : Group) (tag : Byte) (s : State), ∃ s', exec (.load g tag) s = .next s' ∧
    drained g tag s = (List.finRange 8).filter (fun i => flagged s'.eqMask i) ∧
    (drained g tag s).Pairwise (· < ·) ∧
    (∀ i : Fin 8, g.get i = tag → i ∈ drained g tag s) ∧
    (∀ i ∈ drained g tag s, g.get i ≠ tag →
      g.get i = tag ^^^ 1#8 ∧ ∃ j ∈ drained g tag s, j.val + 1 = i.val) ∧
    (∀ n, drainBound ≤ n → drainFrom n s' = drained g tag s) ∧
    ∀ t, drained g tag t = drained g tag s

/-- R101: `NEXT` neither reads nor writes `empty_mask`, and `ANYE` and `FSTE` neither read nor write
`eq_mask`; so a `NEXT` and a query may be exchanged. -/
def Obligations.DrainAndEmptyQueriesAreIndependent : Prop :=
  (∀ s, s.qValid = true → ∃ t, exec .next s = .next t ∧ t.emptyMask = s.emptyMask ∧
    ∀ e, exec .next { s with emptyMask := e } = .next { t with emptyMask := e }) ∧
  (∀ q s, (q = .anye ∨ q = .fste) → s.qValid = true → ∃ t, exec q s = .next t ∧
    t.eqMask = s.eqMask ∧ ∀ e, exec q { s with eqMask := e } = .next { t with eqMask := e }) ∧
  (∀ q s, (q = .anye ∨ q = .fste) → s.qValid = true → ∃ a b t u,
    exec .next s = .next a ∧ exec q a = .next t ∧ exec q s = .next b ∧ exec .next b = .next u ∧
    t.resp = b.resp ∧ u.resp = a.resp ∧ t.eqMask = u.eqMask ∧ t.emptyMask = u.emptyMask ∧
    t.qValid = u.qValid)

/-! ### No exceptions, refusal, several blocks (spec/60_exceptions.md) -/

/-- R110: no command raises an exception: no command, no step and no run ends in a fault, `LOAD` never
fails, with a query held no command does, and absence is the ordinary answer `none`. -/
def Obligations.NoCommandRaisesAnException : Prop :=
  (∀ i s f, exec i s ≠ .fault f) ∧ (∀ s f, step s ≠ .fault f) ∧
  (∀ n s f, Host.Core.run core n s ≠ .fault f) ∧
  (∀ g t s, ∃ s', exec (.load g t) s = .next s') ∧
  (∀ i s, s.qValid = true → ∃ s', exec i s = .next s') ∧
  (∀ s, s.qValid = true → s.emptyMask = 0#64 → answer .fste s = some (.index none)) ∧
  (∀ s, s.qValid = true → s.eqMask = 0#64 → answer .next s = some (.index none))

/-- R118: the one use with no meaning is a query while `q_valid = 0`, and it is refused. That every longer
run then has the refused outcome is how the model keeps R118's refusal mark: log entry 8 (DEDUCED). -/
def Obligations.OnlyAQueryBeforeLoadIsRefused : Prop :=
  (∀ i s, NoLoad [i] → s.qValid = false → exec i s = .refused .queryBeforeLoad) ∧
  (∀ i s r, exec i s = .refused r →
    r = .queryBeforeLoad ∧ s.qValid = false ∧ (i = .anye ∨ i = .fste ∨ i = .next)) ∧
  (∀ n m s r, Host.Core.run core n s = .refused r → Host.Core.run core (n + m) s = .refused r)

/-- R6, R50 (b), R121: the blocks of a system are independent copies of the one-block machine. A step of
one changes no other and does what that block does alone; steps may be exchanged; and under every
interleaving each block is where its own steps alone take it, so that interleavings with the same number
of steps for each block reach the same system. -/
def Obligations.BlocksOfASystemAreIndependent : Prop :=
  (∀ (sys : System) k, (sys.stepAt k).length = sys.length ∧
    (∀ j, j ≠ k → (sys.stepAt k)[j]? = sys[j]?) ∧
    ∀ b, sys[k]? = some b → (sys.stepAt k)[k]? = some b.step) ∧
  (∀ (sys : System) j k, (sys.stepAt j).stepAt k = (sys.stepAt k).stepAt j) ∧
  (∀ (ks : List Nat) (sys : System) j,
    (sys.runSchedule ks)[j]? = sys[j]?.map (Block.steps (ks.count j))) ∧
  (∀ (ks ls : List Nat) (sys : System), (∀ j, ks.count j = ls.count j) →
    sys.runSchedule ks = sys.runSchedule ls)

/-- R121: each block of a system is ready for a `LOAD` at any time after its reset: whatever has become
of it and of the other blocks, and however they have stepped in between, a `LOAD` it is presented gives it
the query of its operands. And a system has at least one block, none marked, just after power-up (R6). -/
def Obligations.EveryBlockIsReadyForALoadAfterReset : Prop :=
  (∀ (sys : System) (ks : List Nat) k b (g : Group) (tag : Byte) (rest : List Input),
    sys[k]? = some b → b.pending = .command (encode (.load g tag)) :: rest → k ∉ ks →
    ∃ b' s', ((sys.runSchedule ks).stepAt k)[k]? = some b' ∧ b'.state? = some s' ∧
      b'.isMarked = b.isMarked ∧ s'.qValid = true ∧ s'.eqMask = matchFlags g tag ∧
      s'.emptyMask = emptyFlags g ∧
      s'.resp = some (.masks (matchFlags g tag) (emptyFlags g)) ∧ s'.pending = rest) ∧
  (∀ (n k : Nat) (sys : System) (g : Group) (tag : Byte), System.AtReset n sys → k < n →
    ∃ s', ((sys.presentAt k [.command (encode (.load g tag))]).stepAt k)[k]? = some (.running s') ∧
      s'.qValid = true ∧ s'.eqMask = matchFlags g tag ∧ s'.emptyMask = emptyFlags g)

/-! ### Whole runs (spec/70_reset_and_hazards.md) -/

/-- R132, R141: a run is good exactly when the host's first command after each reset is a `LOAD`; and
then every input is taken. -/
def Obligations.RunIsGoodExactlyWhenLoadComesFirst : Prop :=
  ∀ s : State, (GoodRun s ↔ hostDisciplined s.qValid s.pending = true) ∧
    (GoodRun s → ∃ t, Host.Core.run core s.pending.length s = .next t ∧ t.pending = [])

/-- The word-level block is the block without words (R20, R32, R70, R71, R74, R85, R86, R95): from every
state that meets the mask invariant, each command does on the masks what it does on the lists of slots,
with the same answer, and is refused exactly when it is refused there. -/
def Obligations.WordLevelBlockRefinesTheSlotLevelBlock : Prop :=
  ∀ (i : Instr) (s : State), s.MaskInv →
    match slotStep (slotView s) i with
    | some (q, r) => ∃ t, exec i s = .next t ∧ t.MaskInv ∧ slotView t = q ∧ t.resp = some r
    | none => exec i s = .refused .queryBeforeLoad

/-- R118, R141 for a block of a system: the mark is the block's own. A block by itself is unmarked after
`n` steps exactly when the run of `n` steps of the one-block machine is good so far, and is then in that
run's state; the mark stays for the rest of its run; a marked block steps as an unmarked one while its
registers are defined; and a refused block keeps no other from its step. That a reset event defines the
registers of a marked block again is log entry 11 (DEDUCED). -/
def Obligations.RefusalMarksOneBlockForTheRestOfItsRun : Prop :=
  (∀ n s t, (Block.running s).steps n = .running t ↔ Host.Core.run core n s = .next t) ∧
  (∀ n s, ((Block.running s).steps n).isMarked = true ↔ ∃ r, Host.Core.run core n s = .refused r) ∧
  (∀ (n : Nat) (b : Block), b.isMarked = true → (b.steps n).isMarked = true) ∧
  (∀ s t, step s = .next t → (Block.marked s).step = .marked t) ∧
  (∀ rest n, ∃ t, (Block.lost (.reset :: rest) n).step = .marked t ∧ t.qValid = false ∧
    t.pending = rest) ∧
  (∀ (sys : System) j k s r, j ≠ k → sys[j]? = some (.running s) → step s = .refused r →
    ((sys.stepAt j).stepAt k)[k]? = sys[k]?.map Block.step)
end

