-- ==== Sys2Proof/Laws/State.lean ====
section
/-! SUPPORT. One lemma per field and per update of the state, each true by `rfl`, so that no proof
unfolds a record update. -/

namespace Sys2Proof.Machine

@[simp] theorem installQuery_qValid (eq empty : Word) (s : State) :
    (installQuery eq empty s).qValid = true := rfl
@[simp] theorem installQuery_eqMask (eq empty : Word) (s : State) :
    (installQuery eq empty s).eqMask = eq := rfl
@[simp] theorem installQuery_emptyMask (eq empty : Word) (s : State) :
    (installQuery eq empty s).emptyMask = empty := rfl
@[simp] theorem installQuery_resp (eq empty : Word) (s : State) :
    (installQuery eq empty s).resp = s.resp := rfl
@[simp] theorem installQuery_pending (eq empty : Word) (s : State) :
    (installQuery eq empty s).pending = s.pending := rfl
@[simp] theorem installQuery_resetCount (eq empty : Word) (s : State) :
    (installQuery eq empty s).resetCount = s.resetCount := rfl

@[simp] theorem writeEqMask_qValid (w : Word) (s : State) :
    (writeEqMask w s).qValid = s.qValid := rfl
@[simp] theorem writeEqMask_eqMask (w : Word) (s : State) :
    (writeEqMask w s).eqMask = w := rfl
@[simp] theorem writeEqMask_emptyMask (w : Word) (s : State) :
    (writeEqMask w s).emptyMask = s.emptyMask := rfl
@[simp] theorem writeEqMask_resp (w : Word) (s : State) :
    (writeEqMask w s).resp = s.resp := rfl
@[simp] theorem writeEqMask_pending (w : Word) (s : State) :
    (writeEqMask w s).pending = s.pending := rfl
@[simp] theorem writeEqMask_resetCount (w : Word) (s : State) :
    (writeEqMask w s).resetCount = s.resetCount := rfl

@[simp] theorem respond_qValid (r : Response) (s : State) :
    (respond r s).qValid = s.qValid := rfl
@[simp] theorem respond_eqMask (r : Response) (s : State) :
    (respond r s).eqMask = s.eqMask := rfl
@[simp] theorem respond_emptyMask (r : Response) (s : State) :
    (respond r s).emptyMask = s.emptyMask := rfl
@[simp] theorem respond_resp (r : Response) (s : State) :
    (respond r s).resp = some r := rfl
@[simp] theorem respond_pending (r : Response) (s : State) :
    (respond r s).pending = s.pending := rfl
@[simp] theorem respond_resetCount (r : Response) (s : State) :
    (respond r s).resetCount = s.resetCount := rfl

@[simp] theorem takeReset_qValid (s : State) :
    (takeReset s).qValid = false := rfl
@[simp] theorem takeReset_eqMask (s : State) :
    (takeReset s).eqMask = Config.resetEqMask s.resetCount := rfl
@[simp] theorem takeReset_emptyMask (s : State) :
    (takeReset s).emptyMask = Config.resetEmptyMask s.resetCount := rfl
@[simp] theorem takeReset_resp (s : State) :
    (takeReset s).resp = none := rfl
@[simp] theorem takeReset_pending (s : State) :
    (takeReset s).pending = s.pending := rfl
@[simp] theorem takeReset_resetCount (s : State) :
    (takeReset s).resetCount = s.resetCount + 1 := rfl

@[simp] theorem presentFirst_qValid (i : Input) (s : State) :
    (presentFirst i s).qValid = s.qValid := rfl
@[simp] theorem presentFirst_eqMask (i : Input) (s : State) :
    (presentFirst i s).eqMask = s.eqMask := rfl
@[simp] theorem presentFirst_emptyMask (i : Input) (s : State) :
    (presentFirst i s).emptyMask = s.emptyMask := rfl
@[simp] theorem presentFirst_resp (i : Input) (s : State) :
    (presentFirst i s).resp = s.resp := rfl
@[simp] theorem presentFirst_pending (i : Input) (s : State) :
    (presentFirst i s).pending = i :: s.pending := rfl
@[simp] theorem presentFirst_resetCount (i : Input) (s : State) :
    (presentFirst i s).resetCount = s.resetCount := rfl

@[simp] theorem present_qValid (is : List Input) (s : State) :
    (present is s).qValid = s.qValid := rfl
@[simp] theorem present_eqMask (is : List Input) (s : State) :
    (present is s).eqMask = s.eqMask := rfl
@[simp] theorem present_emptyMask (is : List Input) (s : State) :
    (present is s).emptyMask = s.emptyMask := rfl
@[simp] theorem present_resp (is : List Input) (s : State) :
    (present is s).resp = s.resp := rfl
@[simp] theorem present_pending (is : List Input) (s : State) :
    (present is s).pending = s.pending ++ is := rfl
@[simp] theorem present_resetCount (is : List Input) (s : State) :
    (present is s).resetCount = s.resetCount := rfl

@[simp] theorem idle_qValid (s : State) :
    (idle s).qValid = s.qValid := rfl
@[simp] theorem idle_eqMask (s : State) :
    (idle s).eqMask = s.eqMask := rfl
@[simp] theorem idle_emptyMask (s : State) :
    (idle s).emptyMask = s.emptyMask := rfl
@[simp] theorem idle_resp (s : State) :
    (idle s).resp = s.resp := rfl
@[simp] theorem idle_pending (s : State) :
    (idle s).pending = s.pending := rfl
@[simp] theorem idle_resetCount (s : State) :
    (idle s).resetCount = s.resetCount := rfl

@[simp] theorem reset_qValid : State.reset.qValid = false := rfl
@[simp] theorem reset_resp : State.reset.resp = none := rfl
@[simp] theorem reset_pending : State.reset.pending = [] := rfl
@[simp] theorem reset_resetCount : State.reset.resetCount = 1 := rfl

end Sys2Proof.Machine
end

