-- ==== Sys2Proof/Laws/Ops.lean ====
section
/-! SUPPORT. What each shared operation can do, said once: the admission test and the taking of an
input. -/

namespace Sys2Proof.Machine

/-- With `q_valid = 1` a query runs. -/
theorem admitQuery_of_valid {s : State} (h : s.qValid = true) (run : State → State) :
    admitQuery s run = .next (run s) := by
  simp [admitQuery, h]

/-- With `q_valid = 0` a query is refused (R118). -/
theorem admitQuery_of_invalid {s : State} (h : s.qValid = false) (run : State → State) :
    admitQuery s run = .refused .queryBeforeLoad := by
  simp [admitQuery, h]

/-- Everything the admission test can answer. -/
theorem admitQuery_cases (s : State) (run : State → State) :
    (s.qValid = true ∧ admitQuery s run = .next (run s)) ∨
      (s.qValid = false ∧ admitQuery s run = .refused .queryBeforeLoad) := by
  cases h : s.qValid
  · exact .inr ⟨rfl, admitQuery_of_invalid h run⟩
  · exact .inl ⟨rfl, admitQuery_of_valid h run⟩

/-- A query that answers a next state was admitted, and the state is the one it computes. -/
theorem admitQuery_eq_next {s t : State} {run : State → State} (h : admitQuery s run = .next t) :
    s.qValid = true ∧ t = run s := by
  obtain ⟨hv, e⟩ | ⟨_, e⟩ := admitQuery_cases s run
  · exact ⟨hv, by simpa [e, eq_comm] using h⟩
  · simp [e] at h

/-- With nothing presented there is no input to take. -/
theorem takeInput_of_nil {s : State} (h : s.pending = []) : takeInput s = none := by
  simp [takeInput, h]

/-- The oldest input is taken, and only it. -/
theorem takeInput_of_cons {s : State} {i : Input} {rest : List Input} (h : s.pending = i :: rest) :
    takeInput s = some (i, { s with pending := rest }) := by
  simp [takeInput, h]

/-- An input presented ahead of all others is the one taken, and taking it undoes the presenting. -/
theorem takeInput_presentFirst (i : Input) (s : State) : takeInput (presentFirst i s) = some (i, s) :=
  rfl

end Sys2Proof.Machine
end

