-- ==== Sys2Proof/Laws/Exec.lean ====
section
/-! SUPPORT. What each meaning can do, said once; the provers cite these and do not unfold a meaning. -/

namespace Sys2Proof.Machine

/-- `LOAD` always completes (R81). -/
theorem exec_load (g : Group) (t : Byte) (s : State) :
    exec (.load g t) s =
      .next (respond (.masks (matchFlags g t) (emptyFlags g))
        (installQuery (matchFlags g t) (emptyFlags g) s)) := rfl

/-- An admitted `ANYE`. -/
theorem exec_anye {s : State} (h : s.qValid = true) :
    exec .anye s = .next (respond (.bool (s.emptyMask != 0#64)) s) :=
  admitQuery_of_valid h _

/-- An admitted `FSTE`. -/
theorem exec_fste {s : State} (h : s.qValid = true) :
    exec .fste s = .next (respond (.index (lowestSlot s.emptyMask)) s) :=
  admitQuery_of_valid h _

/-- An admitted `NEXT`. -/
theorem exec_next {s : State} (h : s.qValid = true) : exec .next s = .next (drainStep s) :=
  admitQuery_of_valid h _

theorem drainStep_qValid (s : State) : (drainStep s).qValid = s.qValid := by
  unfold drainStep; split <;> rfl

theorem drainStep_emptyMask (s : State) : (drainStep s).emptyMask = s.emptyMask := by
  unfold drainStep; split <;> rfl

theorem drainStep_pending (s : State) : (drainStep s).pending = s.pending := by
  unfold drainStep; split <;> rfl

theorem drainStep_resetCount (s : State) : (drainStep s).resetCount = s.resetCount := by
  unfold drainStep; split <;> rfl

theorem drainStep_resp (s : State) : (drainStep s).resp = some (.index (lowestSlot s.eqMask)) := by
  unfold drainStep; split <;> rfl

theorem drainStep_eqMask (s : State) : (drainStep s).eqMask = clearLowest s.eqMask := by
  unfold drainStep
  split
  · rename_i h
    simp [h, clearLowest]
  · rfl

/-- Everything a command can do when it answers a next state. -/
theorem exec_eq_next {i : Instr} {s t : State} (h : exec i s = .next t) :
    (∃ g tag, i = .load g tag ∧
        t = respond (.masks (matchFlags g tag) (emptyFlags g))
          (installQuery (matchFlags g tag) (emptyFlags g) s)) ∨
      (s.qValid = true ∧
        ((i = .anye ∧ t = respond (.bool (s.emptyMask != 0#64)) s) ∨
          (i = .fste ∧ t = respond (.index (lowestSlot s.emptyMask)) s) ∨
            (i = .next ∧ t = drainStep s))) := by
  cases i with
  | load g tag => exact .inl ⟨g, tag, rfl, by simpa [exec_load, eq_comm] using h⟩
  | anye =>
    obtain ⟨hv, ht⟩ := admitQuery_eq_next h
    exact .inr ⟨hv, .inl ⟨rfl, ht⟩⟩
  | fste =>
    obtain ⟨hv, ht⟩ := admitQuery_eq_next h
    exact .inr ⟨hv, .inr (.inl ⟨rfl, ht⟩)⟩
  | next =>
    obtain ⟨hv, ht⟩ := admitQuery_eq_next h
    exact .inr ⟨hv, .inr (.inr ⟨rfl, ht⟩)⟩

/-- What the host has still to present, and the count of free values drawn, no command touches. -/
theorem exec_keeps_port {i : Instr} {s t : State} (h : exec i s = .next t) :
    t.pending = s.pending ∧ t.resetCount = s.resetCount := by
  obtain ⟨g, tag, -, rfl⟩ | ⟨-, ⟨-, rfl⟩ | ⟨-, rfl⟩ | ⟨-, rfl⟩⟩ := exec_eq_next h
  · exact ⟨rfl, rfl⟩
  · exact ⟨rfl, rfl⟩
  · exact ⟨rfl, rfl⟩
  · exact ⟨drainStep_pending s, drainStep_resetCount s⟩

end Sys2Proof.Machine
end

