-- ==== Sys2Proof/Laws/PerInstr.lean ====
section
/-! SUPPORT. Statements about every command as syntax, one lemma per constructor. -/

namespace Sys2Proof.Laws.Canonical

/-- The encoder emits a canonical word (spec/30_encoding.md R60). -/
def Statement (i : Instr) : Prop := isCanonical (encode i) = true

theorem load (g : Group) (t : Byte) : Statement (.load g t) := by
  have h : opField (encode (.load g t)) = 0b00#2 := by
    refine BitVec.eq_of_getLsbD_eq fun k hk => ?_
    have h64 : ¬ 72 + k < 64 := by omega
    simp only [opField, encode, BitVec.getLsbD_extractLsb', BitVec.getLsbD_append, h64, if_false]
    simp
    omega
  simp [Statement, isCanonical, h]

theorem anye : Statement .anye := by unfold Statement; decide

theorem fste : Statement .fste := by unfold Statement; decide

theorem next : Statement .next := by unfold Statement; decide

end Sys2Proof.Laws.Canonical
end

