-- ==== Sys2Proof/Laws/Step.lean ====
section
/-! SUPPORT. Everything one step can do, said once. -/

namespace Sys2Proof.Machine

/-- The three kinds of step: nothing presented, a reset event, a command. -/
theorem step_cases (s : State) :
    (s.pending = [] ∧ step s = .next s) ∨
      (∃ rest, s.pending = .reset :: rest ∧
        step s = .next (takeReset { s with pending := rest })) ∨
      (∃ w rest, s.pending = .command w :: rest ∧
        step s = exec (decode w) { s with pending := rest }) := by
  match h : s.pending with
  | [] => exact .inl ⟨rfl, by simp [step, takeInput_of_nil h, idle]⟩
  | .reset :: rest => exact .inr (.inl ⟨rest, rfl, by simp [step, takeInput_of_cons h]⟩)
  | .command w :: rest => exact .inr (.inr ⟨w, rest, rfl, by simp [step, takeInput_of_cons h]⟩)

end Sys2Proof.Machine
end

