-- ==== Sys2Proof/Laws/Run.lean ====
section
/-! SUPPORT. Runs: what one more step of a run is, and the packaged inductions over `Host.Core.run`. -/

namespace Sys2Proof.Machine

/-- A run of no steps. -/
theorem run_zero (s : State) : Host.Core.run core 0 s = .next s := rfl

/-- A run of any machine whose first step goes on. -/
theorem run_succ_of_step_next {M : Host.Core} {s t : M.State} (h : M.step s = .next t) (n : Nat) :
    M.run (n + 1) s = M.run n t := by
  rw [Host.Core.run, h]

/-- A run of any machine whose first step is refused. -/
theorem run_succ_of_step_refused {M : Host.Core} {s : M.State} {r : M.Refusal}
    (h : M.step s = .refused r) (n : Nat) : M.run (n + 1) s = .refused r := by
  rw [Host.Core.run, h]

/-- A run whose first step goes on. -/
theorem run_succ_of_next {s t : State} (h : step s = .next t) (n : Nat) :
    Host.Core.run core (n + 1) s = Host.Core.run core n t :=
  run_succ_of_step_next (M := core) h n

/-- A run whose first step is refused. -/
theorem run_succ_of_refused {s : State} {r : Refusal} (h : step s = .refused r) (n : Nat) :
    Host.Core.run core (n + 1) s = .refused r :=
  run_succ_of_step_refused (M := core) h n

/-- With nothing presented the block waits for ever (log entry 3). -/
theorem run_of_no_input {s : State} (h : s.pending = []) (n : Nat) :
    Host.Core.run core n s = .next s := by
  have hs : step s = .next s := by
    obtain ⟨-, e⟩ | ⟨rest, hp, -⟩ | ⟨w, rest, hp, -⟩ := step_cases s
    · exact e
    · simp [h] at hp
    · simp [h] at hp
  induction n with
  | zero => rfl
  | succ n ih => rw [run_succ_of_next hs, ih]

/-- A property that every step keeps holds along every run. -/
theorem run_keeps {P : State → Prop} (hstep : ∀ s t, P s → step s = .next t → P t)
    {n : Nat} {s t : State} (hs : P s) (h : Host.Core.run core n s = .next t) : P t := by
  induction n generalizing s with
  | zero =>
    rw [run_zero] at h
    injection h with h
    exact h ▸ hs
  | succ n ih =>
    cases e : step s with
    | next s' =>
      rw [run_succ_of_next e] at h
      exact ih (hstep s s' hs e) h
    | fault f => cases f
    | refused r =>
      rw [run_succ_of_refused e] at h
      cases h

end Sys2Proof.Machine
end

