-- ==== Sys2Proof/Laws/Sequence.lean ====
section
/-! SUPPORT. Sequences of commands: one more command, the answers of admitted queries, one more index of
a drain. -/

namespace Sys2Proof.Machine

theorem execAll_nil (s : State) : execAll [] s = .next s := rfl

/-- A sequence whose first command completes. -/
theorem execAll_cons_of_next {i : Instr} {s t : State} (h : exec i s = .next t) (is : List Instr) :
    execAll (i :: is) s = execAll is t := by
  rw [execAll, h]

/-- A sequence whose first command is refused. -/
theorem execAll_cons_of_refused {i : Instr} {s : State} {r : Refusal} (h : exec i s = .refused r)
    (is : List Instr) : execAll (i :: is) s = .refused r := by
  rw [execAll, h]

/-- A sequence that completes is a first command that does, and the rest from there. -/
theorem execAll_cons_eq_next {i : Instr} {is : List Instr} {s t : State}
    (h : execAll (i :: is) s = .next t) : ∃ u, exec i s = .next u ∧ execAll is u = .next t := by
  cases e : exec i s with
  | next u => exact ⟨u, rfl, by rwa [execAll_cons_of_next e] at h⟩
  | fault f => cases f
  | refused r => rw [execAll_cons_of_refused e] at h; cases h

/-- A property that every command keeps holds after every sequence. -/
theorem execAll_keeps {P : State → Prop} {ok : Instr → Prop}
    (hexec : ∀ i s t, ok i → P s → exec i s = .next t → P t) {is : List Instr} {s t : State}
    (his : ∀ i ∈ is, ok i) (hs : P s) (h : execAll is s = .next t) : P t := by
  induction is generalizing s with
  | nil => rw [execAll_nil] at h; injection h with h; exact h ▸ hs
  | cons i is ih =>
    obtain ⟨u, hu, hrest⟩ := execAll_cons_eq_next h
    exact ih (fun j hj => his j (List.mem_cons_of_mem i hj))
      (hexec i s u (his i List.mem_cons_self) hs hu) hrest

/-- The answer of a command that completes. -/
theorem answer_of_next {i : Instr} {s t : State} (h : exec i s = .next t) : answer i s = t.resp := by
  rw [answer, h]

/-- A drain at a state whose `NEXT` answers an index. -/
theorem drainFrom_of_some {s t : State} {i : Fin 8} (h : exec .next s = .next t)
    (hr : t.resp = some (.index (some i))) (n : Nat) : drainFrom (n + 1) s = i :: drainFrom n t := by
  simp only [drainFrom, h, hr]

/-- A drain at a state whose `NEXT` answers `none`. -/
theorem drainFrom_of_none {s t : State} (h : exec .next s = .next t)
    (hr : t.resp = some (.index none)) (n : Nat) : drainFrom n s = [] := by
  cases n with
  | zero => rfl
  | succ n => simp only [drainFrom, h, hr]

end Sys2Proof.Machine
end

