-- ==== Sys2Proof/Laws/System.lean ====
section
/-! SUPPORT. Everything a step of a block, and of a system, can do, said once. -/

namespace Sys2Proof.Machine

/-- A block whose step goes on. -/
theorem running_step_of_next {s t : State} (h : step s = .next t) :
    (Block.running s).step = .running t := by
  simp only [Block.step, h]

/-- A block whose step is refused is marked and its registers are lost. -/
theorem running_step_of_refused {s : State} {r : Refusal} (h : step s = .refused r) :
    (Block.running s).step = .lost s.pending.tail s.resetCount := by
  simp only [Block.step, h, loseRegisters]

/-- A marked block steps as the unmarked one, and stays marked. -/
theorem marked_step_of_next {s t : State} (h : step s = .next t) :
    (Block.marked s).step = .marked t := by
  simp only [Block.step, h]

/-- A marked block whose step is refused loses its registers again. -/
theorem marked_step_of_refused {s : State} {r : Refusal} (h : step s = .refused r) :
    (Block.marked s).step = .lost s.pending.tail s.resetCount := by
  simp only [Block.step, h, loseRegisters]

/-- A lost block with nothing presented waits. -/
theorem lost_step_nil (n : Nat) : (Block.lost [] n).step = .lost [] n := rfl

/-- A reset event writes the registers of a lost block. -/
theorem lost_step_reset (rest : List Input) (n : Nat) :
    (Block.lost (.reset :: rest) n).step = .marked (takeReset (withoutRegisters rest n)) := rfl

/-- A `LOAD` writes the registers of a lost block. -/
theorem lost_step_load {w : CommandWord} {g : Group} {tag : Byte} (h : decode w = .load g tag)
    (rest : List Input) (n : Nat) :
    (Block.lost (.command w :: rest) n).step =
      .marked (respond (.masks (matchFlags g tag) (emptyFlags g))
        (installQuery (matchFlags g tag) (emptyFlags g) (withoutRegisters rest n))) := by
  have hs : step (withoutRegisters (.command w :: rest) n) =
      exec (decode w) (withoutRegisters rest n) := rfl
  rw [h, exec_load] at hs
  simp only [Block.step, hs]

/-- A query on a lost block is refused and taken. -/
theorem lost_step_query {w : CommandWord} (h : ∀ g tag, decode w ≠ .load g tag)
    (rest : List Input) (n : Nat) :
    (Block.lost (.command w :: rest) n).step = .lost rest n := by
  have hs : step (withoutRegisters (.command w :: rest) n) =
      exec (decode w) (withoutRegisters rest n) := rfl
  have hr : exec (decode w) (withoutRegisters rest n) = .refused .queryBeforeLoad := by
    cases hd : decode w with
    | load g tag => exact absurd hd (h g tag)
    | anye => rfl
    | fste => rfl
    | next => rfl
  rw [hr] at hs
  simp only [Block.step, hs]

/-- A step of a system at a position does there what the block's own step does. -/
theorem stepAt_getElem?_self (k : Nat) (sys : System) :
    (sys.stepAt k)[k]? = sys[k]?.map Block.step := by
  simp [System.stepAt]

/-- A step of a system leaves every other position. -/
theorem stepAt_getElem?_ne {j k : Nat} (h : k ≠ j) (sys : System) :
    (sys.stepAt k)[j]? = sys[j]? := by
  simp [System.stepAt, h]

/-- A step of a system keeps its number of blocks. -/
theorem stepAt_length (k : Nat) (sys : System) : (sys.stepAt k).length = sys.length := by
  simp [System.stepAt]

end Sys2Proof.Machine
end

