-- ==== Sys2Proof/Laws/Words.lean ====
section
/-! SUPPORT. Bits and lanes: the constants bit by bit, and a lane's bits as bits of its word. -/

namespace Sys2Proof

/-- `HI` has exactly the bits 7, 15, …, 63 (R11). -/
theorem hi_getLsbD (k : Nat) : hi.getLsbD k = (decide (k < 64) && decide (k % 8 = 7)) := by
  by_cases h : k < 64
  · have : ∀ j : Fin 64, hi.getLsbD j.val = (decide (j.val < 64) && decide (j.val % 8 = 7)) := by decide
    exact this ⟨k, h⟩
  · simp [h, BitVec.getLsbD_of_ge hi k (by omega)]

/-- `ONES` has exactly the bits 0, 8, …, 56 (R11). -/
theorem ones_getLsbD (k : Nat) : ones.getLsbD k = (decide (k < 64) && decide (k % 8 = 0)) := by
  by_cases h : k < 64
  · have : ∀ j : Fin 64, ones.getLsbD j.val = (decide (j.val < 64) && decide (j.val % 8 = 0)) := by
      decide
    exact this ⟨k, h⟩
  · simp [h, BitVec.getLsbD_of_ge ones k (by omega)]

/-- Bit `j` of lane `i` is bit `8i + j` of the word (R7). -/
theorem lane_getLsbD (w : Word) (i : Fin 8) (j : Nat) :
    (lane w i).getLsbD j = (decide (j < 8) && w.getLsbD (8 * i.val + j)) := by
  simp [lane]

/-- A word is its eight lanes. -/
theorem word_ext_lanes {v w : Word} (h : ∀ i, lane v i = lane w i) : v = w := by
  refine BitVec.eq_of_getLsbD_eq fun k hk => ?_
  have hl := congrArg (fun b : Byte => b.getLsbD (k % 8)) (h ⟨k / 8, by omega⟩)
  have hm : k % 8 < 8 := Nat.mod_lt _ (by decide)
  simpa only [lane_getLsbD, hm, Nat.div_add_mod, decide_true, Bool.true_and] using hl

/-- `XOR` acts on each lane by itself (R79). -/
theorem lane_xor (v w : Word) (i : Fin 8) : lane (v ^^^ w) i = lane v i ^^^ lane w i := by
  refine BitVec.eq_of_getLsbD_eq fun k hk => ?_
  simp only [lane_getLsbD, BitVec.getLsbD_xor, hk, decide_true, Bool.true_and]

/-- The flag of a lane is the high bit of the lane (R7). -/
theorem flagged_eq_lane_high (w : Word) (i : Fin 8) : flagged w i = (lane w i).getLsbD 7 := by
  simp only [flagged, laneHighPos, lane_getLsbD]
  rfl

/-- The bits of a `LOAD`'s empty mask, as bits of the group word. -/
theorem emptyFlags_getLsbD (g : Group) (k : Nat) :
    (emptyFlags g).getLsbD k = (g.word.getLsbD k && (decide (k < 64) && decide (k % 8 = 7))) := by
  simp [emptyFlags, hi_getLsbD]

/-- The lowest slot of an empty mask (R86, R95). -/
theorem lowestSlot_zero : lowestSlot 0#64 = none := rfl

/-- The lowest slot of a mask with a flag (R86, R95). -/
theorem lowestSlot_of_ne_zero {m : Word} (h : m ≠ 0#64) : lowestSlot m = some (slotOf (ctz m)) := by
  simp [lowestSlot, h]

end Sys2Proof
end

