-- ==== Sys2Proof/Tests/Slice0.lean ====
section
/-! SUPPORT. Tests, with expected values from spec/95_test_vectors.md or written out by hand from the
rules; and for every statement with hypotheses a witness that meets them. -/

namespace Sys2Proof.Machine.Tests

/-- A state that holds the given masks, with nothing presented. -/
def holding (eq empty : Word) : State where
  qValid := true
  eqMask := eq
  emptyMask := empty
  resp := none
  pending := []
  resetCount := 1

/-- A state before any `LOAD`, with the given bits in its masks. -/
def unloaded (eq empty : Word) : State := { holding eq empty with qValid := false }

/-- The answer and the two masks after one command. -/
def seen (i : Instr) (s : State) : Option (Option Response × Word × Word) :=
  match exec i s with
  | .next t => some (t.resp, t.eqMask, t.emptyMask)
  | _ => none

/-- The group of the source's example S1. -/
def groupS1 : Group := ⟨5#8, 0x80#8, 5#8, 9#8, 0x80#8, 0#8, 0#8, 0#8⟩

/-- The group of V5: a false-positive chain. -/
def groupV5 : Group := ⟨7#8, 6#8, 6#8, 7#8, 6#8, 0x80#8, 0xFF#8, 6#8⟩

/-- A group of one byte in every lane. -/
def all (b : Byte) : Group := ⟨b, b, b, b, b, b, b, b⟩

/-! ### Well-formedness: a line that each check refuses (R4, R64) -/

theorem test_illformed_seven_bytes :
    (SourceLine.load [1, 2, 3, 4, 5, 6, 7] 0).wellFormed = false := by decide

theorem test_illformed_byte_256 :
    (SourceLine.load [1, 2, 3, 4, 5, 6, 7, 256] 0).wellFormed = false := by decide

theorem test_illformed_tag_256 :
    (SourceLine.load [1, 2, 3, 4, 5, 6, 7, 8] 256).wellFormed = false := by decide

theorem test_wellformed_line : (SourceLine.load [0, 2, 3, 4, 5, 6, 7, 255] 255).wellFormed = true := by
  decide

/-! ### Decoding: words written out from R57 (fields op, tag, group), one or more per constructor -/

/-- op 00, tag 0x05, group 0x0000008009058005 (R64). -/
theorem test_decode_load : decode 0x0050000008009058005#74 = .load groupS1 5#8 := by decide

/-- op 00, every other bit 1 (spec/95_test_vectors.md 2.5). -/
theorem test_decode_load_ones : decode 0x0FFFFFFFFFFFFFFFFFF#74 = .load (all 0xFF#8) 0xFF#8 := by decide

/-- op 01; the low 72 bits are ignored. -/
theorem test_decode_anye : decode 0x1FFFFFFFFFFFFFFFFFF#74 = .anye := by decide

/-- op 10. -/
theorem test_decode_fste : decode 0x20000000000000000AB#74 = .fste := by decide

/-- op 11. -/
theorem test_decode_next : decode 0x3420907060504030201#74 = .next := by decide

theorem test_encode_load : encode (.load groupS1 5#8) = 0x0050000008009058005#74 := by decide

/-- A number of more than 74 bits is no command word. -/
theorem test_decode_refuses_bit_74 : decodeNat (2 ^ 74) = .error .widerThanCommandWord := by decide

theorem test_table_word_next : decodeTableWord 80 0x3000000000000000000 = some .next := by decide

/-! ### One step of each command (spec/95_test_vectors.md) -/

/-- V5: the chain of false positives is in the mask, and 0xFF counts as empty. -/
theorem test_load_v5 : seen (.load groupV5 7#8) (unloaded 1 2) =
    some (some (.masks 0x0000008080808080#64 0x0080800000000000#64),
      0x0000008080808080#64, 0x0080800000000000#64) := by decide

/-- V14: tag 0xFF; the matches are empties, and the borrow out of bit 63 is dropped. -/
theorem test_load_v14 : seen (.load
    ⟨0xFF#8, 0xFE#8, 0xFE#8, 0x7F#8, 0xFF#8, 0x00#8, 0xFE#8, 0xFF#8⟩ 0xFF#8) (holding 0 0) =
    some (some (.masks 0x8000008000808080#64 0x8080008000808080#64),
      0x8000008000808080#64, 0x8080008000808080#64) := by decide

/-- 2.3: only lane 7 empty; the answer does not come from `eq_mask`. -/
theorem test_anye_lane_7 : seen .anye (holding 0 0x8000000000000000#64) =
    some (some (.bool true), 0, 0x8000000000000000#64) := by decide

theorem test_anye_none : seen .anye (holding 0x80#64 0) = some (some (.bool false), 0x80#64, 0) := by
  decide

/-- 2.3: position 63 is slot 7. -/
theorem test_fste_lane_7 : seen .fste (holding 0x80#64 0x8000000000000000#64) =
    some (some (.index (some 7)), 0x80#64, 0x8000000000000000#64) := by decide

theorem test_fste_none : seen .fste (holding 0x80#64 0) = some (some (.index none), 0x80#64, 0) := by
  decide

/-- 2.4, step 2: the lowest flag is yielded and only it is cleared. -/
theorem test_next_v5 : seen .next (holding 0x0000008080808000#64 0x80#64) =
    some (some (.index (some 1)), 0x0000008080800000#64, 0x80#64) := by decide

/-- 2.4: the last flag, in lane 7. -/
theorem test_next_lane_7 : seen .next (holding 0x8000000000000000#64 0) =
    some (some (.index (some 7)), 0, 0) := by decide

/-- 2.6: a query as the first command after reset is refused, and the placed word is the one run. -/
theorem test_query_after_reset : (match step (State.reset.withFetchWord 80 0x3000000000000000000) with
    | .refused .queryBeforeLoad => true | _ => false) = true := by decide

/-- 2.6: a `LOAD` as the first command after reset is performed (V11). -/
theorem test_load_after_reset : (match step (State.reset.withFetchWord 80 0) with
    | .next t => t.qValid && t.eqMask == hi && t.emptyMask == 0#64 | _ => false) = true := by decide

/-- S1: the response word of the `LOAD`. -/
theorem test_response_word : (Response.masks 0x0000000000800080#64 0x0000008000008000#64).encode =
    .wide 0x00000080000080000000000000800080#128 := by decide

/-- S1: the drained sequence the source gives, [0, 2]. -/
theorem test_drained_s1 : drained groupS1 5#8 (unloaded 0 0) = [0, 2] := by decide

/-- R64's own example, with a comment. -/
theorem test_assemble_example : assemble
    ['L', 'O', 'A', 'D', ' ', ' ', '[', '5', ',', ' ', '0', 'x', '8', '0', ',', '5', ',', ' ', '9', ',',
     '0', 'x', '8', '0', ',', '0', ',', '0', ',', '0', ']', ',', ' ', '5', ' ', ';', 't'] =
    .ok (some (.load groupS1 5#8)) := by decide

/-- A line of nothing but a comment holds no command; an unknown word is refused by name. -/
theorem test_assemble_other : assemble [' ', ';', 'N', 'E', 'X', 'T'] = .ok none ∧
    assemble ['N', 'O', 'P'] = .error .unknownMnemonic ∧
    assemble ['A', 'N', 'Y', 'E', ' ', '1'] = .error .badOperands := by decide

/-! ### Witnesses: for each statement with hypotheses, states and operands that meet them -/

/-- A query held mid-drain, with an answer on the port. -/
def midDrain : State := { holding 0x0000008080808000#64 0x0080800000000000#64 with
  resp := some (.index (some 0)) }

/-- `LOAD` is about to be performed on `midDrain`, then a reset event. -/
def presented : State := { midDrain with
  pending := [.command 0x0050000008009058005#74, .reset] }

theorem noLoad_queries : NoLoad [.anye, .fste, .next] := by
  intro i hi g t
  fin_cases hi <;> simp

theorem witness_CtzIsTheLeastSetBit : (0x8000000000000000#64 : Word) ≠ 0#64 ∧
    ctz 0x8000000000000000#64 = 63 ∧ ctz 0x1#64 = 0 := by decide

theorem witness_ClearLowestClearsOneBit : (0x8080#64 : Word) ≠ 0#64 ∧
    clearLowest 0x8080#64 = 0x8000#64 ∧ clearLowest 0x1#64 = 0#64 := by decide

theorem witness_ResetLeavesFreeMasks :
    ({ midDrain with pending := [.reset] } : State).pending = .reset :: [] := rfl

theorem witness_ResetEventLosesTheHeldQuery :
    ({ midDrain with pending := [.reset, .reset] } : State).pending = .reset :: [.reset] ∧
      midDrain.qValid = true := ⟨rfl, rfl⟩

theorem witness_QValidIsSetByLoadAndClearedByNoCommand :
    ({ midDrain with pending := [.reset] } : State).pending = .reset :: [] ∧
    (∃ t, exec .next midDrain = .next t) ∧ midDrain.qValid = true ∧
    (unloaded 3 4).qValid = false ∧ NoLoad [.next] :=
  ⟨rfl, ⟨_, rfl⟩, rfl, rfl, fun i hi g t => by simp at hi; simp [hi]⟩

theorem witness_StepKeepsMaskInvariant :
    midDrain.MaskInv ∧ (∃ t, step { midDrain with pending := [.command 0x3000000000000000000#74] } = .next t) ∧
    (unloaded 3 4).MaskInv := ⟨by decide, ⟨_, rfl⟩, by decide⟩

theorem witness_MasksHoldOnlyLaneFlags :
    presented.MaskInv ∧ ∃ t, Host.Core.run core 1 presented = .next t ∧ t.qValid = true ∧
      t.eqMask ≠ 0#64 ∧ t.emptyMask ≠ 0#64 :=
  ⟨by decide, _, rfl, rfl, by decide, by decide⟩

/-- Two different `LOAD`s with the same masks: nothing matches, nothing is empty. -/
theorem witness_OperandsAreNotRetained :
    matchFlags (all 1#8) 9#8 = matchFlags (all 2#8) 8#8 ∧ emptyFlags (all 1#8) = emptyFlags (all 2#8) := by
  decide

theorem witness_UnspecifiedMasksAreUnobservable :
    SameButUnspecifiedMasks (unloaded 1 2) (unloaded 3 4) ∧ (unloaded 1 2).eqMask ≠ (unloaded 3 4).eqMask ∧
    SameButUnspecifiedMasks midDrain midDrain :=
  ⟨⟨rfl, rfl, rfl, rfl, fun h => by cases h⟩, by decide, ⟨rfl, rfl, rfl, rfl, fun _ => ⟨rfl, rfl⟩⟩⟩

theorem witness_CommandFrames :
    (∃ t, exec (.load groupS1 5#8) (unloaded 1 2) = .next t) ∧ (∃ t, exec .anye midDrain = .next t) ∧
    (∃ t, exec .fste midDrain = .next t) ∧ (∃ t, exec .next midDrain = .next t) ∧
    (∃ t, exec .next (holding 0 0) = .next t) ∧ NoLoad [.next] :=
  ⟨⟨_, rfl⟩, ⟨_, rfl⟩, ⟨_, rfl⟩, ⟨_, rfl⟩, ⟨_, rfl⟩, fun i hi g t => by simp at hi; simp [hi]⟩

theorem witness_OnlyNextIsNotIdempotent :
    midDrain.qValid = true ∧ midDrain.eqMask ≠ 0#64 ∧ (holding 0 0).qValid = true ∧
      (holding 0 0).eqMask = 0#64 := by decide

theorem witness_PresentedCommandsRunInOrder :
    ({ midDrain with pending := [.command (encode .next), .command (encode .anye), .reset] } : State).pending =
      [Instr.next, .anye].map (fun i => .command (encode i)) ++ [.reset] := rfl

theorem witness_OperandFieldsStandInTheWord :
    decode 0x0FFFFFFFFFFFFFFFFFF#74 = .load (all 0xFF#8) 0xFF#8 ∧
    decode 0x0000000000000000000#74 = .load (all 0#8) 0#8 := by decide

theorem witness_EveryCommandWordIsACommand :
    2 ^ 74 - 1 < 2 ^ 74 ∧ 0 < 2 ^ 74 ∧ midDrain.qValid = true := by decide

theorem witness_IgnoredFieldsHaveNoEffect :
    opField 0x1FFFFFFFFFFFFFFFFFF#74 = opField 0x1000000000000000000#74 ∧
    opField 0x1FFFFFFFFFFFFFFFFFF#74 ≠ 0b00#2 ∧
    encode (decode 0x3000000000000000000#74) = 0x3000000000000000000#74 ∧
    encode (decode 0x3000000000000000001#74) ≠ 0x3000000000000000001#74 ∧
    encode (decode 0x0FFFFFFFFFFFFFFFFFF#74) = 0x0FFFFFFFFFFFFFFFFFF#74 := by decide

theorem witness_ResponseWordsOfTheCommands :
    midDrain.qValid = true ∧ (holding 0 0).qValid = true ∧
    (Instr.fste = .fste ∧ midDrain.emptyMask = midDrain.emptyMask) := by decide

theorem witness_DecodeOfEncodeIsTheCommand :
    (Instr.load groupS1 5#8).wellFormed = true ∧ Instr.next.wellFormed = true := by decide

theorem witness_StepRunsTheDecodedCommand :
    presented.pending = .command 0x0050000008009058005#74 :: [.reset] := rfl

theorem witness_PlacedTableWordRuns :
    decodeTableWord 80 (2 ^ 74 - 1) = some .next ∧
    decodeTableWord 74 0x0FFFFFFFFFFFFFFFFFF = some (.load (all 0xFF#8) 0xFF#8) := by decide

theorem witness_IdleStepChangesNothing : midDrain.pending = [] := rfl

theorem witness_NoFalseNegatives : groupS1.get 0 = 5#8 ∧ (all 7#8).get 7 = 7#8 := by decide

/-- V5 has a chain of false positives, V9 and V8 have none; V8 has no true match. -/
theorem witness_FalsePositivesExactly :
    (flagged (matchFlags groupV5 7#8) 2 = true ∧ groupV5.get 2 ≠ 7#8) ∧
    flagged (matchFlags groupV5 7#8) 0 = true ∧
    ((0 : Fin 8) ≤ 2 ∧ groupV5.get 0 = 7#8 ∧ ∀ k : Fin 8, 0 < k → k ≤ 2 → groupV5.get k = 7#8 ^^^ 1#8) ∧
    (∀ i : Fin 8, groupS1.get i ≠ 5#8 ^^^ 1#8) ∧ (∀ i : Fin 8, (all 6#8).get i ≠ 7#8) := by decide

/-- The tags where the clauses meet: 0x7F, 0x80. -/
theorem witness_MatchesAndEmptiesByTheTagsHighBit :
    (0x7F#8 : Byte).toNat < 0x80 ∧ 0x80 ≤ (0x80#8 : Byte).toNat ∧ (all 0x80#8).get 7 = 0x80#8 ∧
    flagged (matchFlags (all 0x7F#8) 0x7F#8) 7 = true ∧ flagged (matchFlags (all 0x80#8) 0x80#8) 0 = true := by
  decide

theorem witness_LoadOverAHeldQueryStartsAfresh :
    ∃ s', execAll [.load groupV5 7#8, .next] (unloaded 1 2) = .next s' := ⟨_, rfl⟩

theorem witness_AnyeAnswersWhetherASlotIsEmpty :
    midDrain.qValid = true ∧ (holding 0 0).qValid = true ∧ (unloaded 1 2).qValid = false := by decide

theorem witness_FsteAnswersTheLowestEmptySlot :
    midDrain.MaskInv ∧ midDrain.qValid = true ∧ answer .fste midDrain = some (.index (some 5)) ∧
    (unloaded 1 2).qValid = false := by decide

theorem witness_EmptyAnswersStandUntilTheNextLoad :
    midDrain.qValid = true ∧ NoLoad [.anye, .fste, .next] := ⟨rfl, noLoad_queries⟩

theorem witness_AnyeAndFsteAgree :
    midDrain.qValid = true ∧ answer .anye midDrain = some (.bool true) ∧
    answer .anye (holding 0 0) = some (.bool false) := by decide

theorem witness_EmptyAnswersInTermsOfTheBytes : NoLoad [.anye, .fste, .next] := noLoad_queries

theorem witness_NextYieldsAndClearsTheLowestMatch :
    midDrain.MaskInv ∧ midDrain.qValid = true ∧ midDrain.eqMask ≠ 0#64 ∧ (holding 0 0).qValid = true ∧
    (unloaded 1 2).qValid = false := by decide

theorem witness_DrainIsStrictlyAscending :
    midDrain.MaskInv ∧ drainFrom 9 midDrain = [1, 2, 3, 4] := by decide

theorem witness_ExhaustionIsSticky :
    (∃ s', exec .next (holding 0 0x80#64) = .next s' ∧ s'.resp = some (.index none)) ∧
    NoLoad [.anye, .fste, .next] := ⟨⟨_, rfl, rfl⟩, noLoad_queries⟩

theorem witness_DrainCannotBeRestarted :
    NoLoad [.anye, .fste, .next] ∧ (∃ t, execAll [.anye, .fste, .next] midDrain = .next t) ∧
    midDrain.MaskInv ∧
    (∃ s', exec .next midDrain = .next s' ∧ s'.resp = some (.index (some 1)) ∧
      ∃ t, execAll [.anye, .fste, .next] s' = .next t) ∧
    (∃ t, execAll [.load groupS1 5#8, .next] (unloaded 1 2) = .next t) :=
  ⟨noLoad_queries, ⟨_, rfl⟩, by decide, ⟨_, rfl, rfl, _, rfl⟩, ⟨_, rfl⟩⟩

theorem witness_DrainedIsTheListOfFlaggedLanes :
    drained groupV5 7#8 (unloaded 0 0) = [0, 1, 2, 3, 4] ∧ groupV5.get 3 = 7#8 ∧ groupV5.get 4 ≠ 7#8 ∧
    drainBound ≤ 9 := by decide

theorem witness_DrainAndEmptyQueriesAreIndependent : midDrain.qValid = true := rfl

theorem witness_NoCommandRaisesAnException :
    midDrain.qValid = true ∧ (holding 0 0).qValid = true ∧ (holding 0 0).emptyMask = 0#64 ∧
    (holding 0 0).eqMask = 0#64 := by decide

theorem witness_OnlyAQueryBeforeLoadIsRefused :
    NoLoad [.next] ∧ (unloaded 1 2).qValid = false ∧
    exec .next (unloaded 1 2) = .refused .queryBeforeLoad ∧
    Host.Core.run core 1 (presentFirst (.command (encode .next)) (unloaded 1 2)) =
      .refused .queryBeforeLoad :=
  ⟨fun i hi g t => by simp at hi; simp [hi], rfl, rfl, rfl⟩

/-- A block whose next command will be refused, with a `LOAD` presented after it. -/
def aboutToBeRefused : State := { unloaded 1 2 with
  pending := [.command (encode .anye), .command (encode (.load groupS1 5#8))] }

/-- Two blocks: the first is about to be refused, the second to load. -/
def twoBlocks : System := [.running aboutToBeRefused, .running presented]

/-- R121: the refusal of block 0 keeps block 1 from nothing, in either order. -/
theorem test_refused_block_stops_no_other :
    (twoBlocks.runSchedule [0, 1]).map Block.isMarked = [true, false] ∧
    (twoBlocks.runSchedule [0, 1])[1]?.bind Block.state? =
      (twoBlocks.runSchedule [1, 0])[1]?.bind Block.state? ∧
    ((twoBlocks.runSchedule [0, 1])[1]?.bind Block.state?).map State.eqMask =
      some 0x0000000000800080#64 := by decide

/-- U5: the `LOAD` after the refused command defines the registers again, and the mark stays. -/
theorem test_load_after_refusal :
    ((Block.running aboutToBeRefused).steps 1).state? = none ∧
    (((Block.running aboutToBeRefused).steps 2).state?.map State.eqMask) =
      some 0x0000000000800080#64 ∧
    ((Block.running aboutToBeRefused).steps 2).isMarked = true := by decide

theorem witness_BlocksOfASystemAreIndependent :
    (0 : Nat) ≠ 1 ∧ twoBlocks[0]? = some (.running aboutToBeRefused) ∧
    (∀ j, [0, 1, 0].count j = [1, 0, 0].count j) :=
  ⟨by decide, rfl, fun j => by simp only [List.count_cons, List.count_nil]; omega⟩

/-- Two blocks just powered up, whose masks differ (the last position is 1); and a lost block, a marked
and a running one that a `LOAD` is presented to. -/
theorem witness_EveryBlockIsReadyForALoadAfterReset :
    (System.AtReset 2 [.running (unloaded 1 2), .running (unloaded 3 4)] ∧ 1 < 2) ∧
    (∀ b ∈ [Block.lost [.command (encode (.load groupS1 5#8)), .reset] 3,
        .marked { midDrain with pending := [.command (encode (.load groupS1 5#8)), .reset] },
        .running { midDrain with pending := [.command (encode (.load groupS1 5#8)), .reset] }],
      [Block.running aboutToBeRefused, b][1]? = some b ∧
        b.pending = .command (encode (.load groupS1 5#8)) :: [.reset] ∧ 1 ∉ [0, 0]) := by
  refine ⟨⟨⟨by decide, rfl, ?_⟩, by decide⟩, by decide⟩
  intro b hb
  have hb' : b = .running (unloaded 1 2) ∨ b = .running (unloaded 3 4) := by simpa using hb
  rcases hb' with rfl | rfl <;> exact ⟨_, rfl, rfl, rfl, rfl⟩

theorem witness_RefusalMarksOneBlockForTheRestOfItsRun :
    (Block.running presented).steps 1 ≠ .running presented ∧
    (∃ t, Host.Core.run core 1 presented = .next t) ∧
    (∃ r, Host.Core.run core 1 aboutToBeRefused = .refused r) ∧
    (Block.lost [] 1).isMarked = true ∧ (∃ t, step presented = .next t) ∧
    ((0 : Nat) ≠ 1 ∧ twoBlocks[0]? = some (.running aboutToBeRefused) ∧
      step aboutToBeRefused = .refused .queryBeforeLoad) :=
  ⟨by decide, ⟨_, rfl⟩, ⟨_, rfl⟩, rfl, ⟨_, rfl⟩, by decide, rfl, rfl⟩

/-- `N_INST` defaults to one block (R6). -/
theorem test_default_system :
    System.AtReset Config.nInstDefault [.running State.reset] :=
  ⟨by decide, rfl, fun b hb => by
    have hb' : b = .running State.reset := by simpa using hb
    subst hb'
    exact ⟨_, rfl, rfl, rfl, rfl⟩⟩

/-- From reset, a `LOAD` is presented: a good run, of one step and then waiting. -/
theorem witness_RunIsGoodExactlyWhenLoadComesFirst :
    GoodRun (presentFirst (.command (encode (.load groupS1 5#8))) State.reset) ∧
    hostDisciplined false [.command (encode (.load groupS1 5#8)), .command (encode .next)] = true ∧
    hostDisciplined true [.reset, .command (encode .next)] = false := by
  refine ⟨?_, by decide, by decide⟩
  intro n r h
  cases n with
  | zero => cases h
  | succ n =>
    rw [run_succ_of_next (t := respond (.masks (matchFlags groupS1 5#8) (emptyFlags groupS1))
      (installQuery (matchFlags groupS1 5#8) (emptyFlags groupS1) State.reset)) (by rfl),
      run_of_no_input (by rfl)] at h
    cases h

theorem witness_WordLevelBlockRefinesTheSlotLevelBlock :
    midDrain.MaskInv ∧ slotView midDrain = some ⟨[1, 2, 3, 4], [5, 6]⟩ ∧ (unloaded 3 4).MaskInv ∧
    slotView (unloaded 3 4) = none := by decide

end Sys2Proof.Machine.Tests
end

/-! PROOFS. What the word primitives compute, said once: `ctz`, `clear_lowest`, concatenation and
`tile`, `zbd`, `slot_of` (spec/00_scope.md R10 to R16). -/

namespace Sys2Proof

/-! ### `ctz` (R14) -/

/-- A non-zero word has a bit set, below 64. -/
theorem exists_bit_of_ne_zero {w : Word} (h : w ≠ 0#64) : ∃ k, k < 64 ∧ w.getLsbD k = true := by
  by_contra hno
  refine h (BitVec.eq_of_getLsbD_eq fun k hk => ?_)
  rw [BitVec.getLsbD_zero]
  exact Bool.eq_false_iff.mpr fun hb => hno ⟨k, hk, hb⟩

/-- `ctz` is `k` exactly when `k` is the least position that holds a 1. -/
theorem ctz_eq_iff {w : Word} {k : Nat} (hk : k < 64) :
    ctz w = k ↔ w.getLsbD k = true ∧ ∀ j, j < k → w.getLsbD j = false := by
  have hfind : ctz w = k ↔ (List.range 64).find? (fun j => w.getLsbD j) = some k := by
    unfold ctz
    cases (List.range 64).find? (fun j => w.getLsbD j) with
    | none =>
      have hne : 64 ≠ k := by omega
      simp [hne]
    | some j => simp
  rw [hfind, List.find?_range_eq_some]
  simp [hk]

/-- The position `ctz` gives for a non-zero word is a position of the word. -/
theorem ctz_lt_of_ne_zero {w : Word} (h : w ≠ 0#64) : ctz w < 64 := by
  cases hf : (List.range 64).find? (fun j => w.getLsbD j) with
  | none =>
    obtain ⟨k, hk, hb⟩ := exists_bit_of_ne_zero h
    have hno := List.find?_range_eq_none.mp hf k hk
    simp [hb] at hno
  | some j =>
    have hj : j < 64 := List.mem_range.mp (List.mem_of_find?_eq_some hf)
    simpa [ctz, hf] using hj

/-- `ctz` points at a 1. -/
theorem getLsbD_ctz {w : Word} (h : w ≠ 0#64) : w.getLsbD (ctz w) = true :=
  ((ctz_eq_iff (ctz_lt_of_ne_zero h)).mp rfl).1

/-- Below `ctz` every bit is 0. -/
theorem getLsbD_of_lt_ctz {w : Word} (h : w ≠ 0#64) {k : Nat} (hk : k < ctz w) :
    w.getLsbD k = false :=
  ((ctz_eq_iff (ctz_lt_of_ne_zero h)).mp rfl).2 k hk

/-! ### `clear_lowest` (R16) -/

/-- The low `k` bits of a word are all 0 exactly when the number they make is 0. -/
theorem toNat_mod_two_pow_eq_zero_iff (w : Word) (k : Nat) :
    w.toNat % 2 ^ k = 0 ↔ ∀ j, j < k → w.getLsbD j = false := by
  constructor
  · intro h j hj
    have hbit := Nat.testBit_mod_two_pow w.toNat k j
    rw [h, Nat.zero_testBit] at hbit
    simpa [hj, BitVec.getLsbD] using hbit.symm
  · intro h
    refine Nat.eq_of_testBit_eq fun j => ?_
    rw [Nat.testBit_mod_two_pow, Nat.zero_testBit]
    by_cases hj : j < k
    · simpa [hj, BitVec.getLsbD] using h j hj
    · simp [hj]

/-- Subtracting 1 turns a bit over exactly when every bit below it is 0: the borrow reaches it. -/
theorem getLsbD_sub_one (w : Word) {k : Nat} (hk : k < 64) :
    (w - 1#64).getLsbD k = (w.getLsbD k ^^ decide (w.toNat % 2 ^ k = 0)) := by
  have hpos : 0 < 2 ^ k := Nat.two_pow_pos k
  have hones : (BitVec.allOnes 64).toNat % 2 ^ k = 2 ^ k - 1 := by
    refine Nat.eq_of_testBit_eq fun j => ?_
    rw [Nat.testBit_mod_two_pow, BitVec.toNat_allOnes, Nat.testBit_two_pow_sub_one,
      Nat.testBit_two_pow_sub_one, ← Bool.decide_and, decide_eq_decide]
    omega
  have hcarry : BitVec.carry k w (BitVec.allOnes 64) false = !decide (w.toNat % 2 ^ k = 0) := by
    rw [BitVec.carry, hones, ← decide_not, decide_eq_decide]
    simp only [Bool.toNat_false, ge_iff_le]
    omega
  have hneg : ~~~1#64 + 1#64 = BitVec.allOnes 64 := by decide
  rw [BitVec.getLsbD_sub (i_lt := hk), hneg, hcarry, BitVec.getLsbD_allOnes]
  simp [hk]

/-- The borrow of `w - 1` reaches `ctz w` and stops there. -/
theorem toNat_mod_two_pow_eq_zero_iff_le_ctz {w : Word} (h : w ≠ 0#64) (k : Nat) :
    w.toNat % 2 ^ k = 0 ↔ k ≤ ctz w := by
  rw [toNat_mod_two_pow_eq_zero_iff]
  constructor
  · intro hlow
    by_contra hk
    have hset := getLsbD_ctz h
    rw [hlow (ctz w) (by omega)] at hset
    cases hset
  · intro hk j hj
    exact getLsbD_of_lt_ctz h (by omega)

/-- `clear_lowest` clears the bit `ctz` points at, and no other. -/
theorem clearLowest_getLsbD {w : Word} (h : w ≠ 0#64) (k : Nat) :
    (clearLowest w).getLsbD k = (w.getLsbD k && decide (k ≠ ctz w)) := by
  rw [clearLowest, BitVec.getLsbD_and]
  cases hw : w.getLsbD k with
  | false => rfl
  | true =>
    have hk : k < 64 := BitVec.lt_of_getLsbD hw
    have hge : ctz w ≤ k := by
      by_contra hlt
      rw [getLsbD_of_lt_ctz h (by omega)] at hw
      cases hw
    rw [getLsbD_sub_one w hk, hw]
    simp only [toNat_mod_two_pow_eq_zero_iff_le_ctz h, Bool.true_xor, Bool.true_and, ← decide_not,
      decide_eq_decide]
    omega

/-! ### Concatenation, the group word and `tile` (R12, R43) -/

/-- A concatenation as a number: the upper part shifted past the lower. -/
theorem toNat_append_eq_add {m n : Nat} (x : BitVec m) (y : BitVec n) :
    (x ++ y).toNat = x.toNat * 2 ^ n + y.toNat := by
  rw [BitVec.toNat_append, ← Nat.shiftLeft_add_eq_or_of_lt y.isLt, Nat.shiftLeft_eq]

/-- The group word as a number: byte `i` has the weight `2^(8i)`. -/
theorem Group.word_toNat (g : Group) : g.word.toNat =
    g.b0.toNat + g.b1.toNat * 2 ^ 8 + g.b2.toNat * 2 ^ 16 + g.b3.toNat * 2 ^ 24 +
      g.b4.toNat * 2 ^ 32 + g.b5.toNat * 2 ^ 40 + g.b6.toNat * 2 ^ 48 + g.b7.toNat * 2 ^ 56 := by
  simp only [Group.word, toNat_append_eq_add]
  omega

/-- A lane as a number. -/
theorem lane_toNat (w : Word) (i : Fin 8) : (lane w i).toNat = w.toNat / 2 ^ (8 * i.val) % 2 ^ 8 := by
  rw [lane, BitVec.extractLsb'_toNat, Nat.shiftRight_eq_div_pow]

/-- Lane `i` of the group word is byte `i` of the group (R43). -/
theorem lane_word (g : Group) (i : Fin 8) : lane g.word i = g.get i := by
  have h0 := g.b0.isLt
  have h1 := g.b1.isLt
  have h2 := g.b2.isLt
  have h3 := g.b3.isLt
  have h4 := g.b4.isLt
  have h5 := g.b5.isLt
  have h6 := g.b6.isLt
  have h7 := g.b7.isLt
  refine BitVec.eq_of_toNat_eq ?_
  rw [lane_toNat, Group.word_toNat]
  fin_cases i <;> simp only [Group.get] <;> omega

/-- The group read back from its word is the group (R58). -/
theorem Group.ofWord_word (g : Group) : Group.ofWord g.word = g := by
  simp only [Group.ofWord, lane_word]
  rfl

/-- A tile is the word of the group that holds its byte in every slot. -/
theorem tile_eq_word (b : Byte) : tile b = Group.word ⟨b, b, b, b, b, b, b, b⟩ := rfl

/-- Every lane of a tile is its byte (R12). -/
theorem lane_tile (b : Byte) (i : Fin 8) : lane (tile b) i = b := by
  rw [tile_eq_word, lane_word]
  fin_cases i <;> rfl

/-- `ONES` as a number. -/
theorem ones_toNat : ones.toNat = 0x0101010101010101 := rfl

/-- A tile as a number: the byte times `ONES`, with no carry out of a lane (R12). -/
theorem tile_toNat (b : Byte) : (tile b).toNat = b.toNat * ones.toNat := by
  simp only [tile_eq_word, Group.word_toNat, ones_toNat]
  omega

/-- A tile as a product of words: the product does not wrap (R12). -/
theorem tile_eq_mul (b : Byte) : tile b = b.setWidth 64 * ones := by
  have hb := b.isLt
  refine BitVec.eq_of_toNat_eq ?_
  rw [tile_toNat, BitVec.toNat_mul, BitVec.toNat_setWidth, ones_toNat]
  omega

/-! ### `zbd` and `slot_of` (R13, R15) -/

/-- What is ANDed with `HI` has bits at lane high positions only. -/
theorem onlyHighBits_and_hi (w : Word) : Machine.OnlyHighBits (w &&& hi) := by
  rw [Machine.OnlyHighBits, BitVec.and_assoc, BitVec.and_not_self]
  exact BitVec.and_zero

/-- `zbd` has bits at lane high positions only (R13). -/
theorem onlyHighBits_zbd (v : Word) : Machine.OnlyHighBits (zbd v) :=
  onlyHighBits_and_hi _

/-- The flag of a lane as a digit of the word. -/
theorem flagged_iff_toNat (w : Word) (i : Fin 8) :
    flagged w i = true ↔ w.toNat / 2 ^ laneHighPos i % 2 = 1 := by
  rw [flagged, BitVec.getLsbD, Nat.testBit_eq_decide_div_mod_eq, decide_eq_true_iff]

/-- `zbd` flags a lane exactly when the subtraction of `ONES` borrows out of it (R71). -/
theorem flagged_zbd_iff (v : Word) (i : Fin 8) :
    flagged (zbd v) i = true ↔
      v.toNat % 2 ^ (8 * i.val + 8) < ones.toNat % 2 ^ (8 * i.val + 8) := by
  have hv := v.isLt
  have hbits : flagged (zbd v) i = true ↔
      flagged (v - ones) i = true ∧ ¬ flagged v i = true := by
    have hi7 : hi.getLsbD (laneHighPos i) = true := by
      rw [hi_getLsbD, laneHighPos, ← Bool.decide_and, decide_eq_true_iff]
      omega
    have hlt : laneHighPos i < 64 := by rw [laneHighPos]; omega
    simp [flagged, zbd, hi7, hlt]
  rw [hbits, flagged_iff_toNat, flagged_iff_toNat, BitVec.toNat_sub, ones_toNat]
  fin_cases i <;> simp only [laneHighPos] <;> omega

/-- `slot_of` divides the position by 8 (R15). -/
theorem slotOf_val {p : Nat} (h : p < 64) : (slotOf p).val = p / 8 := by
  rw [slotOf, Fin.val_ofNat]
  omega

/-- `slot_of` gives a lane's high bit its lane (R15). -/
theorem slotOf_laneHighPos (i : Fin 8) : slotOf (laneHighPos i) = i := by
  refine Fin.ext ?_
  rw [slotOf_val (by rw [laneHighPos]; omega), laneHighPos]
  omega

end Sys2Proof

/-! PROOFS. The word of a `LOAD` read back field by field (spec/30_encoding.md R57, R58, R63). -/

namespace Sys2Proof

/-- The word of a `LOAD` as a number: its fields at their weights, `op` being 0. -/
theorem encode_load_toNat (g : Group) (t : Byte) :
    (encode (.load g t)).toNat = t.toNat * 2 ^ 64 + g.word.toNat := by
  simp only [encode, toNat_append_eq_add]
  simp

theorem opField_encode_load (g : Group) (t : Byte) : opField (encode (.load g t)) = 0b00#2 := by
  have hw := g.word.isLt
  have ht := t.isLt
  refine BitVec.eq_of_toNat_eq ?_
  rw [opField, BitVec.extractLsb'_toNat, encode_load_toNat, Nat.shiftRight_eq_div_pow]
  simp only [BitVec.toNat_ofNat]
  omega

theorem tagField_encode_load (g : Group) (t : Byte) : tagField (encode (.load g t)) = t := by
  have hw := g.word.isLt
  have ht := t.isLt
  refine BitVec.eq_of_toNat_eq ?_
  rw [tagField, BitVec.extractLsb'_toNat, encode_load_toNat, Nat.shiftRight_eq_div_pow]
  omega

theorem groupField_encode_load (g : Group) (t : Byte) : groupField (encode (.load g t)) = g.word := by
  have hw := g.word.isLt
  refine BitVec.eq_of_toNat_eq ?_
  rw [groupField, BitVec.extractLsb'_toNat, encode_load_toNat, Nat.shiftRight_zero]
  omega

/-- Decoding the word of a `LOAD` gives back its operands. -/
theorem decode_encode_load (g : Group) (t : Byte) : decode (encode (.load g t)) = .load g t := by
  simp only [decode, opField_encode_load, tagField_encode_load, groupField_encode_load,
    Group.ofWord_word, if_true]

end Sys2Proof

/-! PROOFS. The statements about the primitives. -/

namespace Sys2Proof.Machine

/-- Settles O1: lanes and product are read off the group word of a tile. -/
theorem tileReplicatesTheByte : Obligations.TileReplicatesTheByte :=
  ⟨rfl, rfl, lane_tile, fun b => ⟨tile_eq_mul b, tile_toNat b⟩,
    by decide, by decide, by decide, by decide⟩

/-- Settles O2: the formula is the definition, and its last AND is with `HI`. -/
theorem zbdIsTheWordFormula : Obligations.ZbdIsTheWordFormula :=
  fun v => ⟨rfl, onlyHighBits_zbd v⟩

/-- Settles O3: `ctz` is the first hit of a search that a non-zero word does not fail. -/
theorem ctzIsTheLeastSetBit : Obligations.CtzIsTheLeastSetBit :=
  fun _ h => ⟨ctz_lt_of_ne_zero h, getLsbD_ctz h, fun _ hk => getLsbD_of_lt_ctz h hk⟩

/-- Settles O4: the quotient of a position below 64 fits in 3 bits. -/
theorem slotOfTruncates : Obligations.SlotOfTruncates := by
  refine ⟨fun p => ⟨slotOf_val p.isLt, ?_⟩, slotOf_laneHighPos⟩
  have hp := p.isLt
  rw [slotOf_val hp, BitVec.extractLsb'_toNat, BitVec.toNat_ofNat, Nat.shiftRight_eq_div_pow]
  omega

/-- Settles O5: the borrow of `w - 1` turns over the bits up to `ctz w`, so the AND loses that one bit. -/
theorem clearLowestClearsOneBit : Obligations.ClearLowestClearsOneBit :=
  ⟨fun _ => rfl, fun _ h k => clearLowest_getLsbD h k, rfl⟩

/-- The flag of lane 7 is the borrow out of the whole word (R79). -/
theorem flagged_zbd_seven_iff (v : Word) : flagged (zbd v) 7 = true ↔ v.toNat < ones.toNat := by
  have hwidth : 8 * (7 : Fin 8).val + 8 = 64 := rfl
  rw [flagged_zbd_iff, hwidth, Nat.mod_eq_of_lt v.isLt, Nat.mod_eq_of_lt ones.isLt]

/-- A word minus `ONES` is the integer difference, with `2^64` added back where it borrows (R10). -/
theorem sub_ones_toNat (v : Word) : (v - ones).toNat =
    v.toNat + (if v.toNat < ones.toNat then 2 ^ 64 else 0) - ones.toNat := by
  have hv := v.isLt
  rw [BitVec.toNat_sub, ones_toNat]
  split <;> omega

/-- Settles O39: lane 7's flag is the borrow out of the word, and the difference wraps with it. -/
theorem theSubtractionWraps : Obligations.TheSubtractionWraps := by
  intro g tag s
  have hflag : flagged (matchFlags g tag) 7 = true ↔ (g.cmp tag).toNat < ones.toNat :=
    flagged_zbd_seven_iff (g.cmp tag)
  refine ⟨_, exec_load g tag s, ?_, hflag.symm, by decide⟩
  rw [sub_ones_toNat]
  simp [hflag]

end Sys2Proof.Machine

/-! PROOFS. Systems of blocks: schedules, and a `LOAD` at any block (spec/60_exceptions.md R121). -/

namespace Sys2Proof.Machine

/-- What a step at one position leaves at any position. -/
theorem stepAt_getElem? (k : Nat) (sys : System) (j : Nat) :
    (sys.stepAt k)[j]? = if k = j then sys[j]?.map Block.step else sys[j]? := by
  split
  · rename_i h
    rw [← h, stepAt_getElem?_self]
  · exact stepAt_getElem?_ne ‹_› sys

/-- Steps at two positions may be exchanged. -/
theorem stepAt_comm (j k : Nat) (sys : System) :
    (sys.stepAt j).stepAt k = (sys.stepAt k).stepAt j := by
  refine List.ext_getElem? fun i => ?_
  simp only [stepAt_getElem?]
  split <;> split <;> rfl

/-- Under a schedule every block is where its own steps alone take it. -/
theorem runSchedule_getElem? (ks : List Nat) (sys : System) (j : Nat) :
    (sys.runSchedule ks)[j]? = sys[j]?.map (Block.steps (ks.count j)) := by
  induction ks generalizing sys with
  | nil =>
    cases h : sys[j]? with
    | none => simpa [System.runSchedule] using h
    | some b => simpa [System.runSchedule, Block.steps] using h
  | cons k ks ih =>
    rw [System.runSchedule, ih, stepAt_getElem?]
    by_cases h : k = j
    · subst h
      rw [if_pos rfl, List.count_cons_self, Option.map_map]
      rfl
    · rw [if_neg h, List.count_cons_of_ne h]

/-- A schedule that does not name a block leaves it. -/
theorem runSchedule_getElem?_of_notMem {ks : List Nat} {k : Nat} (h : k ∉ ks) (sys : System) :
    (sys.runSchedule ks)[k]? = sys[k]? := by
  rw [runSchedule_getElem?, List.count_eq_zero_of_not_mem h]
  exact Option.map_id'

/-- Settles O56: position by position, a schedule is the number of steps it gives the block. -/
theorem blocksOfASystemAreIndependent : Obligations.BlocksOfASystemAreIndependent := by
  refine ⟨fun sys k => ⟨stepAt_length k sys, fun j hj => stepAt_getElem?_ne (Ne.symm hj) sys, ?_⟩,
    fun sys j k => stepAt_comm j k sys, runSchedule_getElem?, ?_⟩
  · intro b hb
    rw [stepAt_getElem?_self, hb]
    rfl
  · intro ks ls sys hcount
    refine List.ext_getElem? fun j => ?_
    rw [runSchedule_getElem?, runSchedule_getElem?, hcount]

/-- The state a `LOAD` leaves: the query of its operands installed, and its masks on the port. -/
def loadResult (g : Group) (tag : Byte) (s : State) : State :=
  respond (.masks (matchFlags g tag) (emptyFlags g))
    (installQuery (matchFlags g tag) (emptyFlags g) s)

/-- A `LOAD` leaves `loadResult`. -/
theorem exec_load_eq_loadResult (g : Group) (tag : Byte) (s : State) :
    exec (.load g tag) s = .next (loadResult g tag s) := exec_load g tag s

/-- A step whose oldest input is a command performs it. -/
theorem step_of_command {s : State} {w : CommandWord} {rest : List Input}
    (h : s.pending = .command w :: rest) : step s = exec (decode w) { s with pending := rest } := by
  obtain ⟨hp, -⟩ | ⟨rest', hp, -⟩ | ⟨w', rest', hp, hstep⟩ := step_cases s
  · simp [h] at hp
  · simp [h] at hp
  · rw [h] at hp
    injection hp with hw hrest
    injection hw with hw
    rw [hstep, hw, hrest]

/-- A step whose oldest input is the word of a `LOAD` installs its query. -/
theorem step_of_load {s : State} {g : Group} {tag : Byte} {rest : List Input}
    (h : s.pending = .command (encode (.load g tag)) :: rest) :
    step s = .next (loadResult g tag { s with pending := rest }) := by
  rw [step_of_command h, decode_encode_load, exec_load_eq_loadResult]

/-- Whatever has become of a block, a `LOAD` that is its oldest input gives it its query, and leaves
its mark. -/
theorem block_step_of_load {b : Block} {g : Group} {tag : Byte} {rest : List Input}
    (h : b.pending = .command (encode (.load g tag)) :: rest) :
    ∃ s, b.step.state? = some (loadResult g tag s) ∧ s.pending = rest ∧
      b.step.isMarked = b.isMarked := by
  cases b with
  | running s =>
    rw [running_step_of_next (step_of_load h)]
    exact ⟨_, rfl, rfl, rfl⟩
  | marked s =>
    rw [marked_step_of_next (step_of_load h)]
    exact ⟨_, rfl, rfl, rfl⟩
  | lost pending resetCount =>
    obtain rfl : pending = _ := h
    rw [lost_step_load (decode_encode_load g tag)]
    exact ⟨_, rfl, rfl, rfl⟩

/-- A block just powered up: unmarked, with nothing presented. -/
theorem block_at_reset {n k : Nat} {sys : System} (h : System.AtReset n sys) (hk : k < n) :
    ∃ s, sys[k]? = some (.running s) ∧ s.pending = [] := by
  obtain ⟨-, hlen, hblocks⟩ := h
  have hk' : k < sys.length := hlen ▸ hk
  obtain ⟨s, hs, -, -, hp⟩ := hblocks sys[k] (List.getElem_mem hk')
  exact ⟨s, by rw [List.getElem?_eq_getElem hk', hs], hp⟩

/-- Presenting inputs to a block presents them to that block. -/
theorem presentAt_getElem?_self (k : Nat) (is : List Input) (sys : System) :
    (sys.presentAt k is)[k]? = sys[k]?.map (Block.present is) := by
  simp [System.presentAt]

/-- Settles O57: the others' steps leave the block, and each of its three kinds takes the `LOAD`. -/
theorem everyBlockIsReadyForALoadAfterReset : Obligations.EveryBlockIsReadyForALoadAfterReset := by
  constructor
  · intro sys ks k b g tag rest hb hp hks
    obtain ⟨s, hstate, hrest, hmark⟩ := block_step_of_load hp
    refine ⟨b.step, loadResult g tag s, ?_, hstate, hmark, rfl, rfl, rfl, rfl, hrest⟩
    rw [stepAt_getElem?_self, runSchedule_getElem?_of_notMem hks, hb]
    rfl
  · intro n k sys g tag hreset hk
    obtain ⟨s, hs, hp⟩ := block_at_reset hreset hk
    have hpresented : (present [.command (encode (.load g tag))] s).pending =
        .command (encode (.load g tag)) :: [] := by
      rw [present_pending, hp, List.nil_append]
    have hstep := running_step_of_next (step_of_load hpresented)
    have hblock := stepAt_getElem?_self k (sys.presentAt k [.command (encode (.load g tag))])
    rw [presentAt_getElem?_self, hs] at hblock
    exact ⟨_, hblock.trans (congrArg some hstep), rfl, rfl, rfl⟩

end Sys2Proof.Machine

/-! PROOFS. Masks of lane flags: their bits, their lowest flag, and the slots they flag
(spec/10_state.md R20 to R23, spec/00_scope.md R14 to R16). -/

namespace Sys2Proof.Machine

/-! ### Masks with bits at lane high positions only (R23) -/

/-- The lane high positions are those below 64 that are 7 modulo 8 (R7). -/
theorem exists_eq_laneHighPos_iff (k : Nat) :
    (∃ i : Fin 8, k = laneHighPos i) ↔ k < 64 ∧ k % 8 = 7 := by
  constructor
  · rintro ⟨i, rfl⟩
    simp only [laneHighPos]
    omega
  · rintro ⟨hk, h7⟩
    exact ⟨⟨k / 8, by omega⟩, by simp only [laneHighPos]; omega⟩

theorem laneHighPos_injective : Function.Injective laneHighPos := fun i j h => by
  rw [← slotOf_laneHighPos i, h, slotOf_laneHighPos]

/-- A bit that is set in a mask of lane flags is a lane's high bit. -/
theorem exists_lane_of_getLsbD {m : Word} (hm : OnlyHighBits m) {k : Nat}
    (hk : m.getLsbD k = true) : ∃ i : Fin 8, k = laneHighPos i := by
  have hlt : k < 64 := BitVec.lt_of_getLsbD hk
  have hbit := congrArg (fun w : Word => w.getLsbD k) hm
  simp only [BitVec.getLsbD_and, BitVec.getLsbD_not, BitVec.getLsbD_zero, hi_getLsbD, hk, hlt,
    decide_true, Bool.true_and] at hbit
  exact (exists_eq_laneHighPos_iff k).mpr ⟨hlt, by simpa using hbit⟩

/-- Clearing bits of a mask of lane flags leaves one. -/
theorem onlyHighBits_and {m : Word} (hm : OnlyHighBits m) (w : Word) : OnlyHighBits (m &&& w) := by
  rw [OnlyHighBits, BitVec.and_assoc, BitVec.and_comm w, ← BitVec.and_assoc, hm]
  exact BitVec.zero_and

/-- One step of the drain leaves a mask of lane flags (R16). -/
theorem onlyHighBits_clearLowest {m : Word} (hm : OnlyHighBits m) : OnlyHighBits (clearLowest m) :=
  onlyHighBits_and hm _

/-- At most one bit a lane: at most 8 bits are set (R23). -/
theorem setBits_le_eight {m : Word} (hm : OnlyHighBits m) : setBits m ≤ 8 := by
  calc setBits m ≤ (List.range 64).countP fun k => decide (k % 8 = 7) :=
        List.countP_mono_left fun k _ hk =>
          decide_eq_true ((exists_eq_laneHighPos_iff k).mp (exists_lane_of_getLsbD hm hk)).2
    _ = 8 := by decide

/-- The lowest set bit of a non-zero mask of lane flags is the high bit of a lane (R23). -/
theorem exists_ctz_eq_laneHighPos {m : Word} (hm : OnlyHighBits m) (h : m ≠ 0#64) :
    ∃ i : Fin 8, ctz m = laneHighPos i :=
  exists_lane_of_getLsbD hm (getLsbD_ctz h)

/-! ### The slots a mask flags -/

theorem mem_flaggedSlots {m : Word} {i : Fin 8} : i ∈ flaggedSlots m ↔ flagged m i = true := by
  simp [flaggedSlots]

theorem flaggedSlots_sortedLT (m : Word) : (flaggedSlots m).SortedLT :=
  ((List.sortedLT_finRange 8).pairwise.filter _).sortedLT

theorem flaggedSlots_zero : flaggedSlots 0#64 = [] := by decide

/-- The lane of the lowest bit of a mask is flagged, and clearing that bit unflags that lane alone. -/
theorem flagged_clearLowest {m : Word} {i : Fin 8} (h : m ≠ 0#64) (hi : ctz m = laneHighPos i)
    (j : Fin 8) : flagged (clearLowest m) j = (flagged m j && decide (j ≠ i)) := by
  rw [flagged, clearLowest_getLsbD h, hi, flagged]
  simp only [ne_eq, laneHighPos_injective.eq_iff]

/-- The slots of a mask of lane flags are the slot of its lowest bit and the slots left when that bit is
cleared: the drain takes the head of the list (R95). -/
theorem flaggedSlots_eq_cons {m : Word} (hm : OnlyHighBits m) (h : m ≠ 0#64) :
    flaggedSlots m = slotOf (ctz m) :: flaggedSlots (clearLowest m) := by
  obtain ⟨i, hi⟩ := exists_ctz_eq_laneHighPos hm h
  have hflag : flagged m i = true := by rw [flagged, ← hi]; exact getLsbD_ctz h
  have hlow : ∀ j, flagged m j = true → i ≤ j := by
    intro j hj
    by_contra hlt
    have hpos : laneHighPos j < ctz m := by rw [hi]; simp only [laneHighPos]; omega
    rw [flagged, getLsbD_of_lt_ctz h hpos] at hj
    cases hj
  have hcleared : ∀ j, j ∈ flaggedSlots (clearLowest m) ↔ flagged m j = true ∧ j ≠ i := by
    intro j
    rw [mem_flaggedSlots, flagged_clearLowest h hi, Bool.and_eq_true, decide_eq_true_iff]
  rw [hi, slotOf_laneHighPos]
  refine List.SortedLT.eq_of_mem_iff (flaggedSlots_sortedLT m) ?_ fun j => ?_
  · refine (List.pairwise_cons.mpr ⟨fun j hj => ?_, (flaggedSlots_sortedLT _).pairwise⟩).sortedLT
    obtain ⟨hj, hne⟩ := (hcleared j).mp hj
    exact lt_of_le_of_ne (hlow j hj) hne.symm
  · rw [List.mem_cons, hcleared, mem_flaggedSlots]
    by_cases hji : j = i
    · simp [hji, hflag]
    · simp [hji]

/-- What `FSTE` and `NEXT` answer is the head of the list of slots (R86, R95). -/
theorem lowestSlot_eq_head? {m : Word} (hm : OnlyHighBits m) :
    lowestSlot m = (flaggedSlots m).head? := by
  by_cases h : m = 0#64
  · rw [h, lowestSlot_zero, flaggedSlots_zero, List.head?_nil]
  · rw [lowestSlot_of_ne_zero h, flaggedSlots_eq_cons hm h, List.head?_cons]

/-- What `NEXT` leaves is the tail of the list of slots (R95). -/
theorem flaggedSlots_clearLowest {m : Word} (hm : OnlyHighBits m) :
    flaggedSlots (clearLowest m) = (flaggedSlots m).tail := by
  by_cases h : m = 0#64
  · subst h
    decide
  · rw [flaggedSlots_eq_cons hm h, List.tail_cons]

/-- What `ANYE` answers is whether the list of slots has an entry (R85). -/
theorem bne_zero_eq_not_isEmpty {m : Word} (hm : OnlyHighBits m) :
    (m != 0#64) = !(flaggedSlots m).isEmpty := by
  by_cases h : m = 0#64
  · rw [h, flaggedSlots_zero]
    rfl
  · rw [flaggedSlots_eq_cons hm h, List.isEmpty_cons, bne_iff_ne.mpr h, Bool.not_false]

/-! ### The word with given flags -/

/-- The word of one flag has the lane's high bit set and no other. -/
theorem getLsbD_one_shiftLeft_laneHighPos (i : Fin 8) (k : Nat) :
    (1#64 <<< laneHighPos i).getLsbD k = decide (laneHighPos i = k) := by
  have hi : laneHighPos i < 64 := by simp only [laneHighPos]; omega
  rw [BitVec.getLsbD_shiftLeft, BitVec.getLsbD_one]
  simp only [← Bool.decide_and, ← decide_not, decide_eq_decide]
  omega

/-- Folding flags into a word adds the high bits of their lanes. -/
theorem getLsbD_foldl_flags (is : List (Fin 8)) (w : Word) (k : Nat) :
    (is.foldl (fun w i => w ||| (1#64 <<< laneHighPos i)) w).getLsbD k =
      (w.getLsbD k || is.any fun i => decide (laneHighPos i = k)) := by
  induction is generalizing w with
  | nil => simp
  | cons i is ih =>
    rw [List.foldl_cons, ih, BitVec.getLsbD_or, getLsbD_one_shiftLeft_laneHighPos, List.any_cons,
      Bool.or_assoc]

theorem getLsbD_maskOf (is : List (Fin 8)) (k : Nat) :
    (maskOf is).getLsbD k = is.any fun i => decide (laneHighPos i = k) := by
  rw [maskOf, getLsbD_foldl_flags, BitVec.getLsbD_zero, Bool.false_or]

/-- A mask of lane flags is the word of the slots it flags. -/
theorem maskOf_flaggedSlots {m : Word} (hm : OnlyHighBits m) : maskOf (flaggedSlots m) = m := by
  refine BitVec.eq_of_getLsbD_eq fun k _ => Bool.eq_iff_iff.mpr ?_
  rw [getLsbD_maskOf, List.any_eq_true]
  constructor
  · rintro ⟨i, hi, hk⟩
    rw [← of_decide_eq_true hk]
    exact mem_flaggedSlots.mp hi
  · intro hk
    obtain ⟨i, rfl⟩ := exists_lane_of_getLsbD hm hk
    exact ⟨i, mem_flaggedSlots.mpr hk, decide_eq_true rfl⟩

end Sys2Proof.Machine

/-! PROOFS. The masks of a `LOAD`, lane by lane (spec/40_load.md R70, R71, R74). -/

namespace Sys2Proof

/-- Lane 0 is flagged by `zbd` exactly when it is 0: nothing borrows from below it (R71). -/
theorem flagged_zbd_zero_iff (v : Word) : flagged (zbd v) 0 = true ↔ lane v 0 = 0#8 := by
  rw [flagged_zbd_iff, ones_toNat, ← BitVec.toNat_inj, lane_toNat]
  simp only [Fin.val_zero, BitVec.toNat_ofNat]
  omega

/-- The recurrence of the borrow chain: a lane is flagged by `zbd` exactly when it is 0, or it is 1 and
the lane below it is flagged (R71). -/
theorem flagged_zbd_succ_iff (v : Word) (i : Fin 7) : flagged (zbd v) i.succ = true ↔
    lane v i.succ = 0#8 ∨ (lane v i.succ = 1#8 ∧ flagged (zbd v) i.castSucc = true) := by
  rw [flagged_zbd_iff, flagged_zbd_iff, ones_toNat, ← BitVec.toNat_inj, ← BitVec.toNat_inj, lane_toNat]
  simp only [BitVec.toNat_ofNat]
  fin_cases i <;> simp <;> omega

/-- Lane `i` of `cmp` is `group[i] XOR tag` (R70). -/
theorem lane_cmp (g : Group) (tag : Byte) (i : Fin 8) : lane (g.cmp tag) i = g.get i ^^^ tag := by
  rw [Group.cmp, lane_xor, lane_word, lane_tile]

theorem onlyHighBits_matchFlags (g : Group) (tag : Byte) : Machine.OnlyHighBits (matchFlags g tag) :=
  onlyHighBits_zbd _

theorem onlyHighBits_emptyFlags (g : Group) : Machine.OnlyHighBits (emptyFlags g) :=
  onlyHighBits_and_hi _

/-- The empty flag of a lane is the high bit of its byte (R74). -/
theorem flagged_emptyFlags_iff (g : Group) (i : Fin 8) :
    flagged (emptyFlags g) i = true ↔ 0x80 ≤ (g.get i).toNat := by
  have hlt := (g.get i).isLt
  have hflag : flagged (emptyFlags g) i = (g.get i).getLsbD 7 := by
    have hpos := (Machine.exists_eq_laneHighPos_iff (laneHighPos i)).mp ⟨i, rfl⟩
    rw [flagged, emptyFlags_getLsbD, ← lane_word, ← flagged_eq_lane_high, flagged]
    simp [hpos]
  rw [hflag, BitVec.getLsbD, Nat.testBit_eq_decide_div_mod_eq, decide_eq_true_iff]
  omega

end Sys2Proof

namespace Sys2Proof.Machine

/-- The recurrence of the borrow chain on bytes: the flag of a byte is the borrow into the next. -/
theorem borrowFlags_getD_succ (cs : List Byte) (borrow : Bool) {k : Nat} (hk : k + 1 < cs.length) :
    (borrowFlags cs borrow).getD (k + 1) false =
      (cs[k + 1] == 0#8 || (cs[k + 1] == 1#8 && (borrowFlags cs borrow).getD k false)) := by
  induction cs generalizing borrow k with
  | nil => simp at hk
  | cons c cs ih =>
    simp only [borrowFlags, List.getD_cons_succ, List.getElem_cons_succ]
    cases k with
    | zero =>
      cases cs with
      | nil => simp at hk
      | cons d ds => simp [borrowFlags]
    | succ k =>
      rw [List.getD_cons_succ]
      exact ih _ (by simpa using hk)

/-- The word subtraction and the borrow chain on bytes flag the same lanes (R71). -/
theorem flagged_zbd_eq_borrowFlags (v : Word) (i : Fin 8) :
    flagged (zbd v) i = (borrowFlags ((List.finRange 8).map (lane v)) false).getD i.val false := by
  induction i using Fin.induction with
  | zero =>
    have h := flagged_zbd_zero_iff v
    rw [Bool.eq_iff_iff, h]
    simp [List.finRange_succ, borrowFlags]
  | succ i ih =>
    have hlen : i.val + 1 < ((List.finRange 8).map (lane v)).length := by
      rw [List.length_map, List.length_finRange]
      omega
    have hget : ((List.finRange 8).map (lane v))[i.val + 1] = lane v i.succ := by
      simp only [List.getElem_map, List.getElem_finRange]
      rfl
    rw [Bool.eq_iff_iff, flagged_zbd_succ_iff, ih, Fin.val_succ, borrowFlags_getD_succ _ _ hlen, hget]
    simp

/-- The match slots of a `LOAD`, by words and by bytes (R71). -/
theorem flaggedSlots_matchFlags (g : Group) (tag : Byte) :
    flaggedSlots (matchFlags g tag) = (SlotQuery.load g tag).found := by
  have hlanes : (fun i => g.get i ^^^ tag) = lane (g.cmp tag) :=
    funext fun i => (lane_cmp g tag i).symm
  simp only [flaggedSlots, SlotQuery.load, slotsOf, hlanes, matchFlags, flagged_zbd_eq_borrowFlags]

/-- The empty slots of a `LOAD`, by words and by bytes (R74). -/
theorem flaggedSlots_emptyFlags (g : Group) (tag : Byte) :
    flaggedSlots (emptyFlags g) = (SlotQuery.load g tag).empties := by
  simp only [flaggedSlots, SlotQuery.load, ← flagged_emptyFlags_iff, Bool.decide_eq_true]

end Sys2Proof.Machine

/-! PROOFS. The statements about the state: what each command and each step leaves, the mask invariant,
unspecified masks, and the block of slot lists (spec/10_state.md). -/

namespace Sys2Proof.Machine

/-! ### Commands and steps -/

/-- One command is no `LOAD` exactly when it is a query. -/
theorem noLoad_singleton_iff {i : Instr} : NoLoad [i] ↔ i = .anye ∨ i = .fste ∨ i = .next := by
  cases i <;> simp [NoLoad]

/-- A command is a `LOAD` or a query. -/
theorem load_or_noLoad (i : Instr) : (∃ g tag, i = .load g tag) ∨ NoLoad [i] := by
  cases i <;> simp [NoLoad]

/-- With `q_valid = 0` every command but `LOAD` is refused (R118). -/
theorem exec_of_noLoad_of_invalid {i : Instr} {s : State} (hi : NoLoad [i]) (hv : s.qValid = false) :
    exec i s = .refused .queryBeforeLoad := by
  obtain rfl | rfl | rfl := noLoad_singleton_iff.mp hi
  · exact admitQuery_of_invalid hv _
  · exact admitQuery_of_invalid hv _
  · exact admitQuery_of_invalid hv _

/-- A query that the admission test refuses came while `q_valid` was 0. -/
theorem admitQuery_eq_refused {s : State} {run : State → State} {r : Refusal}
    (h : admitQuery s run = .refused r) : s.qValid = false ∧ r = .queryBeforeLoad := by
  obtain ⟨-, e⟩ | ⟨hv, e⟩ := admitQuery_cases s run
  · cases e.symm.trans h
  · rw [e] at h
    injection h with h
    exact ⟨hv, h.symm⟩

/-- A refused command is a query before any `LOAD` (R118). -/
theorem exec_eq_refused {i : Instr} {s : State} {r : Refusal} (h : exec i s = .refused r) :
    NoLoad [i] ∧ s.qValid = false ∧ r = .queryBeforeLoad := by
  cases i with
  | load g tag => cases (exec_load g tag s).symm.trans h
  | anye => exact ⟨noLoad_singleton_iff.mpr (.inl rfl), admitQuery_eq_refused h⟩
  | fste => exact ⟨noLoad_singleton_iff.mpr (.inr (.inl rfl)), admitQuery_eq_refused h⟩
  | next => exact ⟨noLoad_singleton_iff.mpr (.inr (.inr rfl)), admitQuery_eq_refused h⟩

/-- A command that completes leaves a query held (R24). -/
theorem qValid_of_exec_eq_next {i : Instr} {s t : State} (h : exec i s = .next t) : t.qValid = true := by
  obtain ⟨g, tag, -, rfl⟩ | ⟨hv, ⟨-, rfl⟩ | ⟨-, rfl⟩ | ⟨-, rfl⟩⟩ := exec_eq_next h
  · rfl
  · exact hv
  · exact hv
  · rw [drainStep_qValid, hv]

/-- A step whose oldest input is a reset event takes it. -/
theorem step_of_reset {s : State} {rest : List Input} (h : s.pending = .reset :: rest) :
    step s = .next (takeReset { s with pending := rest }) := by
  simp only [step, takeInput_of_cons h]

/-- A step with nothing presented waits. -/
theorem step_of_nil {s : State} (h : s.pending = []) : step s = .next s := by
  simp only [step, takeInput_of_nil h, idle]

/-- Settles O8: after a `LOAD` and after every command that completes `q_valid` is 1, and the admission
test reads it. -/
theorem qValidIsSetByLoadAndClearedByNoCommand :
    Obligations.QValidIsSetByLoadAndClearedByNoCommand :=
  ⟨rfl, fun _ _ h => ⟨_, step_of_reset h, rfl⟩, fun g t s => ⟨_, exec_load g t s, rfl⟩,
    fun _ _ _ h _ => qValid_of_exec_eq_next h, fun _ _ hv hi => exec_of_noLoad_of_invalid hi hv⟩

/-- Settles O14: the registers of each of the four next states, read off one by one. -/
theorem commandFrames : Obligations.CommandFrames := by
  intro i s t h
  refine ⟨exec_keeps_port h, ?_⟩
  obtain ⟨g, tag, rfl, -⟩ | ⟨-, ⟨rfl, rfl⟩ | ⟨rfl, rfl⟩ | ⟨rfl, rfl⟩⟩ := exec_eq_next h
  · simp [noLoad_singleton_iff]
  · simp
  · simp
  · refine ⟨fun _ => ⟨drainStep_qValid s, drainStep_emptyMask s⟩, by simp, fun _ => ⟨fun k hk => ?_, ?_⟩⟩
    · rw [drainStep_eqMask, clearLowest, BitVec.getLsbD_and, Bool.and_eq_true] at hk
      exact hk.1
    · intro h0
      rw [drainStep_eqMask, h0]
      rfl

/-- Settles O12: the next state of a `LOAD` names its operands in the two masks only. -/
theorem operandsAreNotRetained : Obligations.OperandsAreNotRetained := by
  intro g g' t t' s heq hempty
  rw [exec_load, exec_load, heq, hempty]

/-- Settles O27: the step that takes a command word, and every command is well-formed. -/
theorem stepRunsTheDecodedCommand : Obligations.StepRunsTheDecodedCommand :=
  fun _ w _ h => ⟨by cases decode w <;> rfl, step_of_command h⟩

/-- A command the table decoder gives is the one the word of that number decodes to. -/
theorem decode_of_decodeTableWord {nbits w : Nat} {i : Instr} (h : decodeTableWord nbits w = some i) :
    decode (BitVec.ofNat 74 (tableNumber nbits w)) = i := by
  unfold decodeTableWord decodeNat at h
  by_cases hlt : tableNumber nbits w < 2 ^ 74
  · rw [if_pos hlt] at h
    exact Option.some.inj h
  · rw [if_neg hlt] at h
    cases h

/-- Settles O28: the placed word is the oldest input, and taking it undoes the placing. -/
theorem placedTableWordRuns : Obligations.PlacedTableWordRuns := by
  intro s nbits w i h
  rw [← decode_of_decodeTableWord h]
  exact step_of_command (presentFirst_pending _ s)

/-- Settles O29: there is no input to take, and the block waits. -/
theorem idleStepChangesNothing : Obligations.IdleStepChangesNothing :=
  fun _ h => step_of_nil h

/-! ### The mask invariant (R23) -/

/-- Settles O9: `q_valid` is 0 at reset. -/
theorem maskInvariantHoldsAtReset : Obligations.MaskInvariantHoldsAtReset :=
  fun h => nomatch h

/-- Every command keeps the mask invariant: `LOAD` installs masks ANDed with `HI`, `NEXT` clears a bit,
the others write no mask. -/
theorem exec_keeps_maskInv {i : Instr} {s t : State} (hs : s.MaskInv) (h : exec i s = .next t) :
    t.MaskInv := by
  obtain ⟨g, tag, -, rfl⟩ | ⟨hv, ⟨-, rfl⟩ | ⟨-, rfl⟩ | ⟨-, rfl⟩⟩ := exec_eq_next h
  · exact fun _ => ⟨onlyHighBits_matchFlags g tag, onlyHighBits_emptyFlags g⟩
  · exact hs
  · exact hs
  · obtain ⟨heq, hempty⟩ := hs hv
    intro _
    rw [drainStep_eqMask, drainStep_emptyMask]
    exact ⟨onlyHighBits_clearLowest heq, hempty⟩

/-- Settles O10: waiting changes nothing, a reset event clears `q_valid`, and a command keeps the
invariant. -/
theorem stepKeepsMaskInvariant : Obligations.StepKeepsMaskInvariant := by
  intro s t hs h
  obtain ⟨-, e⟩ | ⟨rest, -, e⟩ | ⟨w, rest, -, e⟩ := step_cases s
  · rw [e] at h
    injection h with h
    exact h ▸ hs
  · rw [e] at h
    injection h with h
    subst h
    exact fun hv => nomatch hv
  · exact exec_keeps_maskInv (s := { s with pending := rest }) hs (e.symm.trans h)

/-- Settles O11: the invariant holds along the run, and a mask that meets it has at most one bit a
lane. -/
theorem masksHoldOnlyLaneFlags : Obligations.MasksHoldOnlyLaneFlags := by
  intro n s t hs hrun hv m hm
  obtain ⟨heq, hempty⟩ := run_keeps stepKeepsMaskInvariant hs hrun hv
  have hhigh : OnlyHighBits m := by
    obtain rfl | rfl := hm
    · exact heq
    · exact hempty
  exact ⟨hhigh, fun _ => exists_lane_of_getLsbD hhigh, setBits_le_eight hhigh,
    exists_ctz_eq_laneHighPos hhigh⟩

/-! ### Unspecified masks (R33) -/

/-- While a query is held nothing is unspecified: the two states are one. -/
theorem SameButUnspecifiedMasks.eq_of_valid {s t : State} (h : SameButUnspecifiedMasks s t)
    (hv : s.qValid = true) : s = t := by
  cases s
  cases t
  obtain ⟨rfl, rfl, rfl, rfl, hmasks⟩ := h
  obtain ⟨rfl, rfl⟩ := hmasks hv
  rfl

theorem sameButUnspecifiedMasks_refl (s : State) : SameButUnspecifiedMasks s s :=
  ⟨rfl, rfl, rfl, rfl, fun _ => ⟨rfl, rfl⟩⟩

theorem sameOutcomeButUnspecifiedMasks_refl (o : Host.Outcome State Fault Refusal) :
    SameOutcomeButUnspecifiedMasks o o := by
  cases o with
  | next s => exact sameButUnspecifiedMasks_refl s
  | fault f => rfl
  | refused r => rfl

/-- Outcomes that agree up to unspecified masks are two such next states, or one refusal. -/
theorem sameOutcome_cases {o o' : Host.Outcome State Fault Refusal}
    (h : SameOutcomeButUnspecifiedMasks o o') :
    (∃ s t, o = .next s ∧ o' = .next t ∧ SameButUnspecifiedMasks s t) ∨
      ∃ r, o = .refused r ∧ o' = .refused r := by
  match o, o', h with
  | .next s, .next t, h => exact .inl ⟨s, t, rfl, rfl, h⟩
  | .refused r, .refused _, rfl => exact .inr ⟨r, rfl, rfl⟩

/-- No command observes unspecified masks: `LOAD` overwrites them, and a query that would read them is
refused. -/
theorem exec_sameOutcome {s t : State} (h : SameButUnspecifiedMasks s t) (i : Instr) :
    SameOutcomeButUnspecifiedMasks (exec i s) (exec i t) := by
  by_cases hv : s.qValid = true
  · rw [h.eq_of_valid hv]
    exact sameOutcomeButUnspecifiedMasks_refl _
  · obtain ⟨hq, -, hp, hc, -⟩ := h
    have hs : s.qValid = false := Bool.eq_false_iff.mpr hv
    have ht : t.qValid = false := hq ▸ hs
    obtain ⟨g, tag, rfl⟩ | hi := load_or_noLoad i
    · exact ⟨rfl, rfl, hp, hc, fun _ => ⟨rfl, rfl⟩⟩
    · rw [exec_of_noLoad_of_invalid hi hs, exec_of_noLoad_of_invalid hi ht]
      rfl

/-- No step observes unspecified masks. -/
theorem step_sameOutcome {s t : State} (h : SameButUnspecifiedMasks s t) :
    SameOutcomeButUnspecifiedMasks (step s) (step t) := by
  have ⟨hq, hr, hp, hc, hmasks⟩ := h
  obtain ⟨hs, -⟩ | ⟨rest, hs, -⟩ | ⟨w, rest, hs, -⟩ := step_cases s
  · rw [step_of_nil hs, step_of_nil (hp ▸ hs)]
    exact h
  · rw [step_of_reset hs, step_of_reset (hp ▸ hs)]
    exact ⟨rfl, rfl, rfl, congrArg (· + 1) hc, fun hv => nomatch hv⟩
  · rw [step_of_command hs, step_of_command (hp ▸ hs)]
    exact exec_sameOutcome (s := { s with pending := rest }) (t := { t with pending := rest })
      ⟨hq, hr, rfl, hc, hmasks⟩ (decode w)

/-- Settles O13: the relation is kept by every step, so by every run; a refusal of one is the same
refusal of the other. -/
theorem unspecifiedMasksAreUnobservable : Obligations.UnspecifiedMasksAreUnobservable := by
  intro n
  induction n with
  | zero => exact fun s t h => h
  | succ n ih =>
    intro s t h
    obtain ⟨s', t', hs, ht, hnext⟩ | ⟨r, hs, ht⟩ := sameOutcome_cases (step_sameOutcome h)
    · rw [run_succ_of_next hs, run_succ_of_next ht]
      exact ih s' t' hnext
    · rw [run_succ_of_refused hs, run_succ_of_refused ht]
      rfl

/-! ### The block of slot lists -/

theorem slotView_of_valid {s : State} (h : s.qValid = true) :
    slotView s = some ⟨flaggedSlots s.eqMask, flaggedSlots s.emptyMask⟩ := by
  rw [slotView, if_pos h]

theorem slotView_of_invalid {s : State} (h : s.qValid = false) : slotView s = none := by
  rw [slotView, h]
  rfl

/-- The answer on the port is no part of the query. -/
theorem slotView_respond (r : Response) (s : State) : slotView (respond r s) = slotView s := rfl

/-- What a `LOAD` leaves, seen as slot lists, is `LOAD` on bytes alone. -/
theorem slotView_loadResult (g : Group) (tag : Byte) (s : State) :
    slotView (loadResult g tag s) = some (SlotQuery.load g tag) := by
  rw [slotView_of_valid rfl]
  exact congrArg some (congrArg₂ SlotQuery.mk (flaggedSlots_matchFlags g tag)
    (flaggedSlots_emptyFlags g tag))

/-- The two masks a `LOAD` answers are the words of the slots found on bytes alone. -/
theorem masks_eq_maskOf_load (g : Group) (tag : Byte) :
    Response.masks (matchFlags g tag) (emptyFlags g) =
      .masks (maskOf (SlotQuery.load g tag).found) (maskOf (SlotQuery.load g tag).empties) := by
  rw [← flaggedSlots_matchFlags, ← flaggedSlots_emptyFlags,
    maskOf_flaggedSlots (onlyHighBits_matchFlags g tag), maskOf_flaggedSlots (onlyHighBits_emptyFlags g)]

/-- What `NEXT` leaves, seen as slot lists, has lost the head of the matches. -/
theorem slotView_drainStep {s : State} (hv : s.qValid = true) (hm : OnlyHighBits s.eqMask) :
    slotView (drainStep s) = some ⟨(flaggedSlots s.eqMask).tail, flaggedSlots s.emptyMask⟩ := by
  rw [slotView_of_valid ((drainStep_qValid s).trans hv), drainStep_eqMask, drainStep_emptyMask,
    flaggedSlots_clearLowest hm]

/-- The block without words refuses every query while it holds none. -/
theorem slotStep_none_of_noLoad {i : Instr} (hi : NoLoad [i]) : slotStep none i = none := by
  obtain rfl | rfl | rfl := noLoad_singleton_iff.mp hi
  · rfl
  · rfl
  · rfl

/-- What a command does on the masks, the block of slot lists does on the slots they flag, with the same
answer. -/
theorem slotStep_of_exec_next {i : Instr} {s t : State} (hs : s.MaskInv) (h : exec i s = .next t) :
    ∃ r, slotStep (slotView s) i = some (slotView t, r) ∧ t.resp = some r := by
  obtain ⟨g, tag, rfl, rfl⟩ | ⟨hv, hq⟩ := exec_eq_next h
  · refine ⟨_, ?_, rfl⟩
    rw [masks_eq_maskOf_load]
    exact congrArg (fun q => some (q, _)) (slotView_loadResult g tag s).symm
  · obtain ⟨heq, hempty⟩ := hs hv
    obtain ⟨rfl, rfl⟩ | ⟨rfl, rfl⟩ | ⟨rfl, rfl⟩ := hq
    · refine ⟨_, ?_, rfl⟩
      rw [bne_zero_eq_not_isEmpty hempty, slotView_respond, slotView_of_valid hv]
      rfl
    · refine ⟨_, ?_, rfl⟩
      rw [lowestSlot_eq_head? hempty, slotView_respond, slotView_of_valid hv]
      rfl
    · refine ⟨_, ?_, drainStep_resp s⟩
      rw [lowestSlot_eq_head? heq, slotView_of_valid hv, slotView_drainStep hv heq]
      rfl

/-- Settles O59: a command that completes is simulated on the slot lists and keeps the mask invariant; a
refused one is a query while no query is held, which the block of slot lists refuses too. -/
theorem wordLevelBlockRefinesTheSlotLevelBlock :
    Obligations.WordLevelBlockRefinesTheSlotLevelBlock := by
  intro i s hs
  cases e : exec i s with
  | next t =>
    obtain ⟨r, hslot, hresp⟩ := slotStep_of_exec_next hs e
    rw [hslot]
    exact ⟨t, rfl, exec_keeps_maskInv hs e, rfl, hresp⟩
  | fault f => cases f
  | refused r =>
    obtain ⟨hi, hv, rfl⟩ := exec_eq_refused e
    rw [slotView_of_invalid hv, slotStep_none_of_noLoad hi]

end Sys2Proof.Machine

/-! PROOFS. The statements about lanes and order: the group word, which commands may be issued twice, and
runs over presented commands (spec/20_memory.md). -/

namespace Sys2Proof.Machine

/-- Settles O15: the word's lanes are the group's bytes, and the sum of their values at their weights is
its value. -/
theorem groupWordIsLittleEndian : Obligations.GroupWordIsLittleEndian := by
  refine fun g => ⟨rfl, fun i => ⟨lane_word g i, ?_⟩, ?_⟩
  · rw [← lane_word, ← flagged_eq_lane_high]
    rfl
  · rw [Group.word_toNat, ← Fin.sum_univ_def, Fin.sum_univ_eight]
    simp [Group.get]

/-! ### Commands issued twice (R49) -/

/-- The answer `none` is given exactly on an empty mask (R86, R95). -/
theorem lowestSlot_eq_none_iff {m : Word} : lowestSlot m = none ↔ m = 0#64 := by
  simp [lowestSlot]

/-- Clearing the lowest bit leaves exactly the mask that has none (R16). -/
theorem clearLowest_eq_self_iff {m : Word} : clearLowest m = m ↔ m = 0#64 := by
  constructor
  · intro hm
    by_contra h
    have hbit := clearLowest_getLsbD h (ctz m)
    rw [hm, getLsbD_ctz h] at hbit
    simp at hbit
  · rintro rfl
    rfl

/-- A step of the drain leaves exactly the states in which the drain is over and has said so. -/
theorem drainStep_eq_self_iff {s : State} :
    drainStep s = s ↔ s.eqMask = 0#64 ∧ s.resp = some (.index none) := by
  constructor
  · intro h
    have hmask : s.eqMask = 0#64 := by
      rw [← clearLowest_eq_self_iff, ← drainStep_eqMask, h]
    refine ⟨hmask, ?_⟩
    rw [← h, drainStep_resp, hmask, lowestSlot_zero]
  · rintro ⟨hmask, hresp⟩
    cases s
    subst hmask hresp
    rfl

/-- A second step of the drain changes nothing exactly when the first found no flag: after a flag, the
second clears another or answers `none` (R49, R97). -/
theorem drainStep_drainStep_eq_iff (s : State) :
    drainStep (drainStep s) = drainStep s ↔ s.eqMask = 0#64 := by
  rw [drainStep_eq_self_iff, drainStep_eqMask, drainStep_resp]
  constructor
  · rintro ⟨-, hresp⟩
    exact lowestSlot_eq_none_iff.mp (by simpa using hresp)
  · intro hmask
    rw [hmask]
    exact ⟨rfl, rfl⟩

/-- Settles O16: `ANYE` and `FSTE` write the answer alone and do not read it, a `LOAD` reads no register,
and a `NEXT` repeats itself only when it found no flag. -/
theorem onlyNextIsNotIdempotent : Obligations.OnlyNextIsNotIdempotent := by
  refine ⟨fun i s hi hv => ?_, fun g t s u => ?_, fun s hv => ?_⟩
  · obtain rfl | rfl := hi
    · exact ⟨_, exec_anye hv, exec_anye hv, rfl, rfl, rfl⟩
    · exact ⟨_, exec_fste hv, exec_fste hv, rfl, rfl, rfl⟩
  · exact ⟨_, _, exec_load g t s, exec_load g t _, exec_load g t u, rfl, rfl, rfl, rfl⟩
  · refine ⟨_, exec_next hv, ?_⟩
    rw [exec_next ((drainStep_qValid s).trans hv), Host.Outcome.next.injEq]
    exact drainStep_drainStep_eq_iff s

/-! ### Runs over presented commands (R50) -/

/-- Decoding the canonical word of a command gives back the command (R60). -/
theorem decode_encode (i : Instr) : decode (encode i) = i := by
  cases i with
  | load g t => exact decode_encode_load g t
  | anye => decide
  | fste => decide
  | next => decide

/-- A step whose oldest input is the canonical word of a command performs the command. -/
theorem step_of_encode {s : State} {i : Instr} {rest : List Input}
    (h : s.pending = .command (encode i) :: rest) : step s = exec i { s with pending := rest } := by
  rw [step_of_command h, decode_encode]

/-- A step of the drain neither reads nor writes what the host has still to present. -/
theorem drainStep_withPending (s : State) (p : List Input) :
    drainStep { s with pending := p } = { drainStep s with pending := p } := by
  unfold drainStep
  split <;> rfl

/-- No command reads what the host has still to present: one that completes does so whatever stands
there. -/
theorem exec_withPending_of_next {i : Instr} {s t : State} (h : exec i s = .next t) (p : List Input) :
    exec i { s with pending := p } = .next { t with pending := p } := by
  obtain ⟨g, tag, rfl, rfl⟩ | ⟨hv, ⟨rfl, rfl⟩ | ⟨rfl, rfl⟩ | ⟨rfl, rfl⟩⟩ := exec_eq_next h
  · exact exec_load g tag _
  · exact exec_anye hv
  · exact exec_fste hv
  · rw [← drainStep_withPending]
    exact exec_next hv

/-- A command that is refused is so whatever the host has still to present. -/
theorem exec_withPending_of_refused {i : Instr} {s : State} {r : Refusal} (h : exec i s = .refused r)
    (p : List Input) : exec i { s with pending := p } = .refused r := by
  obtain ⟨hi, hv, rfl⟩ := exec_eq_refused h
  exact exec_of_noLoad_of_invalid hi hv

/-- Settles O17: a step takes the oldest command and performs it as if the later ones were not there, so
the run goes command by command with the sequence. -/
theorem presentedCommandsRunInOrder : Obligations.PresentedCommandsRunInOrder := by
  intro is rest
  induction is with
  | nil =>
    rintro s rfl
    rfl
  | cons i is ih =>
    intro s hs
    have hstep := step_of_encode (rest := is.map (fun i => .command (encode i)) ++ rest) hs
    rw [List.length_cons]
    cases e : exec i { s with pending := rest } with
    | next t =>
      obtain ⟨hrest, -⟩ := exec_keeps_port e
      obtain rfl : t.pending = rest := hrest
      rw [run_succ_of_next (hstep.trans (exec_withPending_of_next e _)), ih _ rfl,
        execAll_cons_of_next e]
    | fault f => cases f
    | refused r =>
      exact (run_succ_of_refused (hstep.trans (exec_withPending_of_refused e _)) _).trans
        (execAll_cons_of_refused e is).symm

end Sys2Proof.Machine

/-! PROOFS. The statements about command words: what the decoder reads from the four values of `op`, and
the word the encoder gives back (spec/30_encoding.md R57 to R60, R63). -/

namespace Sys2Proof

/-! ### Fields and operands (R57, R58) -/

/-- `op` above the 72 bits below it is the whole word. -/
theorem opField_append_ignoredField (w : CommandWord) : opField w ++ ignoredField w = w :=
  (BitVec.extractLsb'_append_extractLsb'_eq_extractLsb' rfl).trans BitVec.extractLsb'_eq_self

/-- The tag above the group word is what lies below `op`. -/
theorem tagField_append_groupField (w : CommandWord) : tagField w ++ groupField w = ignoredField w :=
  BitVec.extractLsb'_append_extractLsb'_eq_extractLsb' rfl

/-- Byte `i` of the group read from a word is lane `i` of the word. -/
theorem Group.get_ofWord (w : Word) (i : Fin 8) : (Group.ofWord w).get i = lane w i := by
  fin_cases i <;> rfl

/-- The word of the group read from a word is that word. -/
theorem Group.word_ofWord (w : Word) : (Group.ofWord w).word = w :=
  word_ext_lanes fun i => by rw [lane_word, Group.get_ofWord]

/-- Lane `i` of the group field is `CW[8i+7:8i]`: it lies inside the low 64 bits. -/
theorem lane_groupField (w : CommandWord) (i : Fin 8) :
    lane (groupField w) i = w.extractLsb' (8 * i.val) 8 :=
  BitVec.extractLsb'_extractLsb'_of_le (by omega)

/-! ### The decoder by the value of `op` (R63) -/

/-- What the decoder gives for each of the four values of `op`. -/
theorem decode_cases (w : CommandWord) :
    (opField w = 0b00#2 ∧ decode w = .load (Group.ofWord (groupField w)) (tagField w)) ∨
      (opField w = 0b01#2 ∧ decode w = .anye) ∨ (opField w = 0b10#2 ∧ decode w = .fste) ∨
        (opField w = 0b11#2 ∧ decode w = .next) := by
  have hop : ∀ op : BitVec 2, op = 0b00#2 ∨ op = 0b01#2 ∨ op = 0b10#2 ∨ op = 0b11#2 := by decide
  obtain h | h | h | h := hop (opField w)
  · exact .inl ⟨h, by simp [decode, h]⟩
  · exact .inr (.inl ⟨h, by simp [decode, h]⟩)
  · exact .inr (.inr (.inl ⟨h, by simp [decode, h]⟩))
  · exact .inr (.inr (.inr ⟨h, by simp [decode, h]⟩))

theorem decode_eq_load_iff {w : CommandWord} {g : Group} {t : Byte} :
    decode w = .load g t ↔ opField w = 0b00#2 ∧ Group.ofWord (groupField w) = g ∧ tagField w = t := by
  obtain ⟨h, e⟩ | ⟨h, e⟩ | ⟨h, e⟩ | ⟨h, e⟩ := decode_cases w <;> simp [h, e]

theorem decode_eq_anye_iff {w : CommandWord} : decode w = .anye ↔ opField w = 0b01#2 := by
  obtain ⟨h, e⟩ | ⟨h, e⟩ | ⟨h, e⟩ | ⟨h, e⟩ := decode_cases w <;> simp [h, e]

theorem decode_eq_fste_iff {w : CommandWord} : decode w = .fste ↔ opField w = 0b10#2 := by
  obtain ⟨h, e⟩ | ⟨h, e⟩ | ⟨h, e⟩ | ⟨h, e⟩ := decode_cases w <;> simp [h, e]

theorem decode_eq_next_iff {w : CommandWord} : decode w = .next ↔ opField w = 0b11#2 := by
  obtain ⟨h, e⟩ | ⟨h, e⟩ | ⟨h, e⟩ | ⟨h, e⟩ := decode_cases w <;> simp [h, e]

/-- Unless `op` is that of `LOAD`, the decoder reads `op` alone (R60). -/
theorem decode_congr_of_opField {v w : CommandWord} (h : opField v = opField w)
    (hne : opField v ≠ 0b00#2) : decode v = decode w := by
  simp only [decode, ← h, if_neg hne]

/-! ### Decoding and encoding again (R60) -/

/-- The word of a `LOAD` comes back whole. -/
theorem encode_decode_of_op_load {w : CommandWord} (h : opField w = 0b00#2) :
    encode (decode w) = w := by
  calc encode (decode w)
      = opField w ++ (tagField w ++ groupField w) := by
        rw [decode_eq_load_iff.mpr ⟨h, rfl, rfl⟩, encode, Group.word_ofWord, BitVec.append_assoc, h]
        rfl
    _ = w := by rw [tagField_append_groupField, opField_append_ignoredField]

/-- Of any other word `op` comes back, above zeros. -/
theorem encode_decode_of_op_ne_load {w : CommandWord} (hne : opField w ≠ 0b00#2) :
    encode (decode w) = opField w ++ 0#72 := by
  obtain ⟨h, e⟩ | ⟨h, e⟩ | ⟨h, e⟩ | ⟨h, e⟩ := decode_cases w
  · exact absurd h hne
  · rw [e, h, encode]
  · rw [e, h, encode]
  · rw [e, h, encode]

/-- A word comes back from decoding and encoding exactly when it is canonical. -/
theorem encode_decode_eq_self_iff (w : CommandWord) :
    encode (decode w) = w ↔ opField w = 0b00#2 ∨ ignoredField w = 0#72 := by
  by_cases h : opField w = 0b00#2
  · simp only [encode_decode_of_op_load h, h, true_or]
  · calc encode (decode w) = w
        ↔ opField w ++ 0#72 = opField w ++ ignoredField w := by
          rw [encode_decode_of_op_ne_load h, opField_append_ignoredField]
      _ ↔ ignoredField w = 0#72 := by rw [BitVec.append_right_inj, eq_comm]
      _ ↔ opField w = 0b00#2 ∨ ignoredField w = 0#72 := by simp only [h, false_or]

/-! ### The decoder by mask and match (R63) -/

/-- The decoder's mask keeps `op` and clears the 72 bits below it. -/
theorem and_mask_eq_opField_append (w : CommandWord) :
    w &&& 0x3000000000000000000#74 = opField w ++ 0#72 := by
  have hmask : 0x3000000000000000000#74 = BitVec.allOnes 2 ++ 0#72 := by decide
  calc w &&& 0x3000000000000000000#74
      = (opField w ++ ignoredField w) &&& (BitVec.allOnes 2 ++ 0#72) := by
        rw [opField_append_ignoredField, hmask]
    _ = opField w ++ 0#72 := by rw [BitVec.and_append, BitVec.and_allOnes, BitVec.and_zero]

/-- The masked word is a row's match exactly when `op` is that row's. -/
theorem and_mask_eq_iff (w : CommandWord) (op : BitVec 2) :
    w &&& 0x3000000000000000000#74 = op ++ 0#72 ↔ opField w = op := by
  rw [and_mask_eq_opField_append, BitVec.append_left_inj]

end Sys2Proof

namespace Sys2Proof.Machine

/-- Settles O26: the fields of a `LOAD`'s word read back one by one, and the other three words are fixed. -/
theorem decodeOfEncodeIsTheCommand : Obligations.DecodeOfEncodeIsTheCommand :=
  fun i _ => decode_encode i

/-- Settles O18: byte `i` of the decoded group is a lane of the group field, and the encoder reaches every
group and tag. -/
theorem operandFieldsStandInTheWord : Obligations.OperandFieldsStandInTheWord := by
  constructor
  · intro w g t h
    obtain ⟨-, rfl, rfl⟩ := decode_eq_load_iff.mp h
    refine ⟨fun i => ?_, rfl, ?_⟩
    · rw [Group.get_ofWord, lane_groupField]
    · simp [tagField]
  · exact fun g t => ⟨encode (.load g t), decode_encode_load g t, (groupField_encode_load g t).symm⟩

/-- Every command is well-formed: its types leave it no illegal field (R58, R59). -/
theorem wellFormed_eq_true (i : Instr) : i.wellFormed = true := by
  cases i <;> rfl

/-- With a query held every command completes (R59, R118). -/
theorem exists_exec_eq_next_of_valid (i : Instr) {s : State} (hv : s.qValid = true) :
    ∃ t, exec i s = .next t := by
  cases e : exec i s with
  | next t => exact ⟨t, rfl⟩
  | fault f => cases f
  | refused r =>
    obtain ⟨-, hinvalid, -⟩ := exec_eq_refused e
    rw [hv] at hinvalid
    cases hinvalid

/-- Settles O19: a number of at most 74 bits is a word, a word decodes, and with a query held no command is
refused. -/
theorem everyCommandWordIsACommand : Obligations.EveryCommandWordIsACommand := by
  intro n hn
  refine ⟨_, if_pos hn, wellFormed_eq_true _, fun s hv => ?_⟩
  obtain ⟨t, ht⟩ := exists_exec_eq_next_of_valid
    (decode (BitVec.ofNat 74 (tableNumber 74 n))) hv
  exact ⟨t, (step_of_command (presentFirst_pending _ s)).trans ht⟩

/-- Settles O20: a step reads of the word only what it decodes to. -/
theorem ignoredFieldsHaveNoEffect : Obligations.IgnoredFieldsHaveNoEffect := by
  refine ⟨fun v w h hne => ?_, by decide, by decide, by decide, encode_decode_eq_self_iff⟩
  have hdecode := decode_congr_of_opField h hne
  refine ⟨hdecode, fun s => ?_⟩
  rw [step_of_command (presentFirst_pending _ s), step_of_command (presentFirst_pending _ s), hdecode]
  rfl

/-- Settles O24: the four matches are the four values of `op` above zeros. -/
theorem decodeFollowsMatchAndMask : Obligations.DecodeFollowsMatchAndMask := by
  intro w
  have hload := and_mask_eq_iff w 0b00#2
  have hanye := and_mask_eq_iff w 0b01#2
  have hfste := and_mask_eq_iff w 0b10#2
  have hnext := and_mask_eq_iff w 0b11#2
  refine ⟨hload.trans ?_, hanye.trans decode_eq_anye_iff.symm, hfste.trans decode_eq_fste_iff.symm,
    hnext.trans decode_eq_next_iff.symm, ?_⟩
  · rw [decode_eq_load_iff]
    exact ⟨fun h => ⟨h, rfl, rfl⟩, fun ⟨h, _, _⟩ => h⟩
  · obtain ⟨h, -⟩ | ⟨h, -⟩ | ⟨h, -⟩ | ⟨h, -⟩ := decode_cases w
    · exact .inl (hload.mpr h)
    · exact .inr (.inl (hanye.mpr h))
    · exact .inr (.inr (.inl (hfste.mpr h)))
    · exact .inr (.inr (.inr (hnext.mpr h)))

end Sys2Proof.Machine

/-! PROOFS. The statements about response words (spec/30_encoding.md R61, R62). -/

namespace Sys2Proof

/-- The slot index stands in the low three bits of its word. -/
theorem extractLsb'_encodeSlot_some (i : Fin 8) :
    (encodeSlot (some i)).extractLsb' 0 3 = BitVec.ofFin (w := 3) i :=
  BitVec.extractLsb'_append_eq_right

/-- Bit 3 of an option's word says whether there is an index. -/
theorem getLsbD_three_encodeSlot (o : Option (Fin 8)) : (encodeSlot o).getLsbD 3 = o.isSome := by
  cases o with
  | none => rfl
  | some i => fin_cases i <;> rfl

theorem encodeSlot_some_toNat (i : Fin 8) : (encodeSlot (some i)).toNat = 8 + i.val :=
  toNat_append_eq_add 1#1 (BitVec.ofFin (w := 3) i)

/-- An option is read back from its word. -/
theorem decodeSlot_encodeSlot (o : Option (Fin 8)) : decodeSlot (encodeSlot o) = some o := by
  cases o with
  | none => rfl
  | some i => rw [decodeSlot, getLsbD_three_encodeSlot, extractLsb'_encodeSlot_some]; rfl

/-- There is an answer exactly when the mask has a flag (R86, R95). -/
theorem lowestSlot_isSome_iff {m : Word} : (lowestSlot m).isSome = true ↔ m ≠ 0#64 := by
  rw [Option.isSome_iff_ne_none, ne_eq, Machine.lowestSlot_eq_none_iff]

/-- The index bits of a mask's answer: the slot of its lowest flag, 0 where it has none. -/
theorem index_bits_encodeSlot_lowestSlot (m : Word) :
    ((encodeSlot (lowestSlot m)).extractLsb' 0 3).toNat = if m = 0#64 then 0 else ctz m / 8 := by
  split
  · rename_i h
    rw [h, lowestSlot_zero]
    rfl
  · rename_i h
    rw [lowestSlot_of_ne_zero h, extractLsb'_encodeSlot_some]
    exact slotOf_val (ctz_lt_of_ne_zero h)

end Sys2Proof

namespace Sys2Proof.Machine

/-- `FSTE` and `NEXT` answer the slot of the lowest flag, each of its own mask. -/
theorem answer_eq_index_lowestSlot {s : State} {i : Instr} {m : Word} (hv : s.qValid = true)
    (h : i = .fste ∧ m = s.emptyMask ∨ i = .next ∧ m = s.eqMask) :
    answer i s = some (.index (lowestSlot m)) := by
  obtain ⟨rfl, rfl⟩ | ⟨rfl, rfl⟩ := h
  · exact answer_of_next (exec_fste hv)
  · rw [answer_of_next (exec_next hv), drainStep_resp]

/-- Settles O21: the answer of each command, on the port. -/
theorem responseWordsOfTheCommands : Obligations.ResponseWordsOfTheCommands := by
  refine ⟨fun g t s => ?_, fun s hv => ?_, fun s i m hv h => ?_⟩
  · exact ⟨_, _, _, exec_load g t s, rfl, rfl, BitVec.extractLsb'_append_eq_right,
      BitVec.extractLsb'_append_eq_left⟩
  · exact ⟨_, _, answer_of_next (exec_anye hv), rfl,
      (BitVec.ofBool_eq_iff_eq (b' := true)).trans bne_iff_ne⟩
  · refine ⟨_, _, answer_eq_index_lowestSlot hv h, rfl, ?_, index_bits_encodeSlot_lowestSlot m⟩
    rw [getLsbD_three_encodeSlot, lowestSlot_isSome_iff]

/-- Settles O22: the bit above the three index bits weighs 8, and `none` is 0. -/
theorem slotAnswerEncoding : Obligations.SlotAnswerEncoding := by
  refine ⟨fun i => ⟨?_, encodeSlot_some_toNat i⟩, rfl, fun o => ?_⟩
  · rw [encodeSlot, BitVec.ofNat_finVal]
  · cases o with
    | none => decide
    | some i => rw [encodeSlot_some_toNat]; omega

/-- Settles O23: each shape of the port is cut where the encoder joined it. -/
theorem responseWordReadsBack : Obligations.ResponseWordReadsBack := by
  intro r
  cases r with
  | masks eq empty =>
    rw [Response.encode, ResponseWord.decode, BitVec.extractLsb'_append_eq_right,
      BitVec.extractLsb'_append_eq_left]
  | bool b => cases b <;> rfl
  | index o => rw [Response.encode, ResponseWord.decode, decodeSlot_encodeSlot, Option.map_some]

end Sys2Proof.Machine

/-! PROOFS. The statement about the assembler: a command's text cut into tokens, and the tokens read
(spec/30_encoding.md R64). -/

namespace Sys2Proof

/-! ### Characters of a word -/

/-- A character that stands in a word of a line: it separates nothing, is no piece of its own and starts
no comment. -/
def isWordChar (c : Char) : Bool :=
  !isBlank c && c != '[' && c != ']' && c != ',' && c != ';'

theorem isWordChar_iff {c : Char} : isWordChar c = true ↔
    isBlank c = false ∧ c ≠ '[' ∧ c ≠ ']' ∧ c ≠ ',' ∧ c ≠ ';' := by
  simp [isWordChar, and_assoc]

/-- The tokenizer collects the characters of a word. -/
theorem tokenize_append_of_isWordChar {cs : List Char} (h : ∀ c ∈ cs, isWordChar c = true)
    (rest acc : List Char) : tokenize (cs ++ rest) acc = tokenize rest (cs.reverse ++ acc) := by
  induction cs generalizing acc with
  | nil => rfl
  | cons c cs ih =>
    obtain ⟨hc, hcs⟩ := List.forall_mem_cons.mp h
    obtain ⟨hblank, hopen, hclose, hcomma, -⟩ := isWordChar_iff.mp hc
    rw [List.cons_append, tokenize]
    simp only [hblank, beq_eq_false_iff_ne.mpr hopen, beq_eq_false_iff_ne.mpr hclose,
      beq_eq_false_iff_ne.mpr hcomma, Bool.false_eq_true, if_false]
    rw [ih hcs, List.reverse_cons, List.append_assoc]
    rfl

/-! ### A byte's text -/

theorem isWordChar_hexDigit (v : BitVec 4) : isWordChar (hexDigit v) = true := by
  revert v
  decide

/-- A hexadecimal digit is read back. -/
theorem digitValue_hexDigit (v : BitVec 4) : digitValue 16 (hexDigit v) = some v.toNat := by
  revert v
  decide

theorem isWordChar_of_mem_byteText {b : Byte} {c : Char} (h : c ∈ byteText b) :
    isWordChar c = true := by
  simp only [byteText, List.mem_cons, List.not_mem_nil, or_false] at h
  obtain rfl | rfl | rfl | rfl := h
  · decide
  · decide
  · exact isWordChar_hexDigit _
  · exact isWordChar_hexDigit _

/-- A byte is its high half at the weight 16 and its low half. -/
theorem byte_toNat_eq (b : Byte) :
    (b.extractLsb' 4 4).toNat * 16 + (b.extractLsb' 0 4).toNat = b.toNat := by
  have hb := b.isLt
  simp only [BitVec.extractLsb'_toNat, Nat.shiftRight_eq_div_pow]
  omega

/-- The text of a byte is read back as its number. -/
theorem readNumber_byteText (b : Byte) : readNumber (byteText b) = some b.toNat := by
  simp only [byteText, readNumber, readDigits, digitValue_hexDigit]
  rw [Nat.zero_mul, Nat.zero_add, byte_toNat_eq]

/-- The tokenizer cuts a byte's text off at a comma, and passes over the blank after it. -/
theorem tokenize_byteText_comma (b : Byte) (rest : List Char) :
    tokenize (byteText b ++ ',' :: ' ' :: rest) [] =
      .word (byteText b) :: .comma :: tokenize rest [] := by
  rw [tokenize_append_of_isWordChar fun _ => isWordChar_of_mem_byteText]
  rfl

/-- The tokenizer cuts a byte's text off at the closing bracket, before the comma and the tag. -/
theorem tokenize_byteText_closeBracket (b : Byte) (rest : List Char) :
    tokenize (byteText b ++ ']' :: ',' :: ' ' :: rest) [] =
      .word (byteText b) :: .closeBracket :: .comma :: tokenize rest [] := by
  rw [tokenize_append_of_isWordChar fun _ => isWordChar_of_mem_byteText]
  rfl

/-- The tokenizer cuts a byte's text off at the end of the line. -/
theorem tokenize_byteText (b : Byte) : tokenize (byteText b) [] = [.word (byteText b)] := by
  have h := tokenize_append_of_isWordChar (fun _ => isWordChar_of_mem_byteText (b := b)) [] []
  rw [List.append_nil] at h
  rw [h]
  rfl

/-- The tokenizer cuts the mnemonic of a `LOAD` and the opening bracket. -/
theorem tokenize_load_openBracket (rest : List Char) :
    tokenize ('L' :: 'O' :: 'A' :: 'D' :: ' ' :: '[' :: rest) [] =
      .word ['L', 'O', 'A', 'D'] :: .openBracket :: tokenize rest [] := rfl

/-! ### A command's line -/

/-- The line the programmer writes for a command. -/
def Instr.sourceLine : Instr → SourceLine
  | .load g t =>
    .load [g.b0.toNat, g.b1.toNat, g.b2.toNat, g.b3.toNat, g.b4.toNat, g.b5.toNat, g.b6.toNat,
      g.b7.toNat] t.toNat
  | .anye => .anye
  | .fste => .fste
  | .next => .next

/-- A byte's number is a byte. -/
theorem isByte_toNat (b : Byte) : isByte b.toNat = true := decide_eq_true b.isLt

/-- A command's line stands for the command. -/
theorem toInstr_sourceLine (i : Instr) : i.sourceLine.toInstr = .ok i := by
  cases i with
  | load g t =>
    simp [Instr.sourceLine, SourceLine.toInstr, SourceLine.wellFormed, isByte_toNat,
      Config.groupWidth]
  | anye => rfl
  | fste => rfl
  | next => rfl

/-- A `LOAD`'s text, piece by piece from the left. -/
theorem text_load (g : Group) (t : Byte) : (Instr.load g t).text =
    'L' :: 'O' :: 'A' :: 'D' :: ' ' :: '[' :: (byteText g.b0 ++ ',' :: ' ' ::
      (byteText g.b1 ++ ',' :: ' ' :: (byteText g.b2 ++ ',' :: ' ' ::
        (byteText g.b3 ++ ',' :: ' ' :: (byteText g.b4 ++ ',' :: ' ' ::
          (byteText g.b5 ++ ',' :: ' ' :: (byteText g.b6 ++ ',' :: ' ' ::
            (byteText g.b7 ++ ']' :: ',' :: ' ' :: byteText t)))))))) := by
  delta Instr.text
  simp only [List.append_assoc, List.cons_append, List.nil_append]

/-- The tokens of a `LOAD`'s text. -/
theorem tokenize_text_load (g : Group) (t : Byte) : tokenize (Instr.load g t).text [] =
    [.word ['L', 'O', 'A', 'D'], .openBracket,
      .word (byteText g.b0), .comma, .word (byteText g.b1), .comma, .word (byteText g.b2), .comma,
      .word (byteText g.b3), .comma, .word (byteText g.b4), .comma, .word (byteText g.b5), .comma,
      .word (byteText g.b6), .comma, .word (byteText g.b7), .closeBracket, .comma,
      .word (byteText t)] := by
  rw [text_load, tokenize_load_openBracket]
  simp only [tokenize_byteText_comma, tokenize_byteText_closeBracket, tokenize_byteText]

/-- One more operand of a `LOAD` is read. -/
theorem readOperands_byteText_comma (b : Byte) (rest : List Token) (bytes : List Nat) :
    readOperands (.word (byteText b) :: .comma :: rest) bytes =
      readOperands rest (b.toNat :: bytes) := by
  rw [readOperands, readNumber_byteText]

/-- The last operand and the tag of a `LOAD` are read. -/
theorem readOperands_byteText_closeBracket (b t : Byte) (bytes : List Nat) :
    readOperands [.word (byteText b), .closeBracket, .comma, .word (byteText t)] bytes =
      .ok (.load (b.toNat :: bytes).reverse t.toNat) := by
  rw [readOperands, readNumber_byteText, readNumber_byteText]

/-- A command's text is read as its line. -/
theorem readLine_text (i : Instr) : readLine (tokenize i.text []) = .ok (some i.sourceLine) := by
  cases i with
  | load g t =>
    rw [tokenize_text_load, readLine, if_pos rfl]
    simp only [readOperands_byteText_comma, readOperands_byteText_closeBracket]
    rfl
  | anye => rfl
  | fste => rfl
  | next => rfl

/-! ### Comments -/

/-- No character of a byte's text starts a comment. -/
theorem semicolon_notMem_byteText (b : Byte) : ';' ∉ byteText b := fun h => by
  obtain ⟨-, -, -, -, hne⟩ := isWordChar_iff.mp (isWordChar_of_mem_byteText h)
  exact hne rfl

/-- No character of a command's text starts a comment. -/
theorem semicolon_notMem_text (i : Instr) : ';' ∉ i.text := by
  cases i with
  | load g t => simp [text_load, semicolon_notMem_byteText]
  | anye => decide
  | fste => decide
  | next => decide

theorem stripComment_eq_self {cs : List Char} (h : ';' ∉ cs) : stripComment cs = cs := by
  refine List.takeWhile_eq_self_iff.mpr fun c hc => bne_iff_ne.mpr ?_
  rintro rfl
  exact h hc

/-- A comment is taken off the line before it. -/
theorem stripComment_append_comment {cs : List Char} (h : ';' ∉ cs) (comment : List Char) :
    stripComment (cs ++ ';' :: comment) = cs := by
  calc stripComment (cs ++ ';' :: comment)
      = cs ++ (';' :: comment).takeWhile (· != ';') :=
        List.takeWhile_append_of_pos (List.takeWhile_eq_self_iff.mp (stripComment_eq_self h))
    _ = cs := List.append_nil cs

/-- A line that is a command's text before its comment assembles to the command. -/
theorem assemble_of_stripComment_eq_text {cs : List Char} {i : Instr} (h : stripComment cs = i.text) :
    assemble cs = .ok (some i) := by
  rw [assemble, h, readLine_text]
  simp only [toInstr_sourceLine]
  rfl

end Sys2Proof

namespace Sys2Proof.Machine

/-- Settles O30: a command's text holds no `;`, and cut into tokens it reads back operand by operand. -/
theorem assemblerReadsEveryCommand : Obligations.AssemblerReadsEveryCommand := fun i comment =>
  ⟨assemble_of_stripComment_eq_text (stripComment_eq_self (semicolon_notMem_text i)),
    assemble_of_stripComment_eq_text (stripComment_append_comment (semicolon_notMem_text i) comment)⟩

end Sys2Proof.Machine

/-! PROOFS. The statements about `LOAD`: the runs that the borrow chain flags, masks that flag no
lane, the drained sequence as the list of flagged lanes (spec/40_load.md). -/

namespace Sys2Proof

/-! ### The flagged lanes in terms of the bytes (R71, R73) -/

/-- Lane 0 is flagged exactly when it holds the tag: nothing borrows from below it (R71). -/
theorem flagged_matchFlags_zero_iff (g : Group) (tag : Byte) :
    flagged (matchFlags g tag) 0 = true ↔ g.get 0 ^^^ tag = 0#8 := by
  rw [matchFlags, flagged_zbd_zero_iff, lane_cmp]

/-- The borrow chain on the group's bytes (R71). -/
theorem flagged_matchFlags_succ_iff (g : Group) (tag : Byte) (i : Fin 7) :
    flagged (matchFlags g tag) i.succ = true ↔ g.get i.succ ^^^ tag = 0#8 ∨
      (g.get i.succ ^^^ tag = 1#8 ∧ flagged (matchFlags g tag) i.castSucc = true) := by
  rw [matchFlags, flagged_zbd_succ_iff, lane_cmp]

/-- A byte that differs from the tag by 1 is the tag with its lowest bit flipped (R73). -/
theorem xor_eq_one_iff {b tag : Byte} : b ^^^ tag = 1#8 ↔ b = tag ^^^ 1#8 := by
  rw [xor_eq_iff_left_eq, BitVec.xor_comm]

/-- No byte is both the tag and the tag with its lowest bit flipped. -/
theorem xor_one_ne_self (tag : Byte) : tag ^^^ 1#8 ≠ tag :=
  mt xor_left_eq_self_iff.mp (by decide)

/-- A match with the unbroken run above it: lane `j` holds the tag, and every lane above it up to `i`
holds `tag XOR 0x01` (R71). -/
def MatchRun (g : Group) (tag : Byte) (j i : Fin 8) : Prop :=
  j ≤ i ∧ g.get j = tag ∧ ∀ k : Fin 8, j < k → k ≤ i → g.get k = tag ^^^ 1#8

/-- A match is a run by itself. -/
theorem matchRun_self {g : Group} {tag : Byte} {i : Fin 8} (h : g.get i = tag) : MatchRun g tag i i :=
  ⟨le_rfl, h, fun _ hlt hle => absurd hle (not_le_of_gt hlt)⟩

/-- Only a match in lane 0 has a run that ends there. -/
theorem exists_matchRun_zero_iff {g : Group} {tag : Byte} :
    (∃ j, MatchRun g tag j 0) ↔ g.get 0 = tag := by
  constructor
  · rintro ⟨j, hle, hj, -⟩
    rwa [Fin.le_zero_iff.mp hle] at hj
  · exact fun h => ⟨0, matchRun_self h⟩

/-- A run ends in a lane exactly when the lane is a match, or holds `tag XOR 0x01` directly above the
end of a run. -/
theorem exists_matchRun_succ_iff {g : Group} {tag : Byte} {i : Fin 7} :
    (∃ j, MatchRun g tag j i.succ) ↔ g.get i.succ = tag ∨
      (g.get i.succ = tag ^^^ 1#8 ∧ ∃ j, MatchRun g tag j i.castSucc) := by
  constructor
  · rintro ⟨j, hle, hj, hrun⟩
    obtain rfl | hlt := eq_or_lt_of_le hle
    · exact .inl hj
    · exact .inr ⟨hrun _ hlt le_rfl, j, Fin.le_castSucc_iff.mpr hlt, hj,
        fun k hjk hk => hrun k hjk (hk.trans i.castSucc_lt_succ.le)⟩
  · rintro (h | ⟨h, j, hle, hj, hrun⟩)
    · exact ⟨_, matchRun_self h⟩
    · refine ⟨j, hle.trans i.castSucc_lt_succ.le, hj, fun k hjk hk => ?_⟩
      obtain rfl | hlt := eq_or_lt_of_le hk
      · exact h
      · exact hrun k hjk (Fin.le_castSucc_iff.mpr hlt)

/-- The flagged lanes are the true matches and the runs of `tag XOR 0x01` directly above them (R71). -/
theorem flagged_matchFlags_iff_matchRun (g : Group) (tag : Byte) (i : Fin 8) :
    flagged (matchFlags g tag) i = true ↔ ∃ j, MatchRun g tag j i := by
  induction i using Fin.induction with
  | zero => rw [flagged_matchFlags_zero_iff, BitVec.xor_eq_zero_iff, exists_matchRun_zero_iff]
  | succ i ih =>
    rw [flagged_matchFlags_succ_iff, ih, BitVec.xor_eq_zero_iff, xor_eq_one_iff,
      exists_matchRun_succ_iff]

/-- No false negatives: a lane that holds the tag is flagged (R72). -/
theorem flagged_matchFlags_of_match {g : Group} {tag : Byte} {i : Fin 8} (h : g.get i = tag) :
    flagged (matchFlags g tag) i = true :=
  (flagged_matchFlags_iff_matchRun g tag i).mpr ⟨i, matchRun_self h⟩

/-- A flagged lane holds the tag, or `tag XOR 0x01` with a match in a lower lane (R73). -/
theorem match_or_above_match_of_flagged {g : Group} {tag : Byte} {i : Fin 8}
    (h : flagged (matchFlags g tag) i = true) :
    g.get i = tag ∨ (g.get i = tag ^^^ 1#8 ∧ ∃ j, j < i ∧ g.get j = tag) := by
  obtain ⟨j, hle, hj, hrun⟩ := (flagged_matchFlags_iff_matchRun g tag i).mp h
  obtain rfl | hlt := eq_or_lt_of_le hle
  · exact .inl hj
  · exact .inr ⟨hrun i hlt le_rfl, j, hlt, hj⟩

/-- A flagged lane 0 is a true match (R73). -/
theorem match_of_flagged_zero {g : Group} {tag : Byte} (h : flagged (matchFlags g tag) 0 = true) :
    g.get 0 = tag :=
  BitVec.xor_eq_zero_iff.mp ((flagged_matchFlags_zero_iff g tag).mp h)

/-- A lane is a false positive exactly when it holds `tag XOR 0x01` directly above a flagged
lane (R73). -/
theorem falsePositive_iff (g : Group) (tag : Byte) (i : Fin 8) :
    (flagged (matchFlags g tag) i = true ∧ g.get i ≠ tag) ↔
      (g.get i = tag ^^^ 1#8 ∧
        ∃ j : Fin 8, j.val + 1 = i.val ∧ flagged (matchFlags g tag) j = true) := by
  cases i using Fin.cases with
  | zero =>
    constructor
    · rintro ⟨hflag, hne⟩
      exact absurd (match_of_flagged_zero hflag) hne
    · rintro ⟨-, j, hj, -⟩
      cases hj
  | succ i =>
    have hbelow : (∃ j : Fin 8, j.val + 1 = i.succ.val ∧ flagged (matchFlags g tag) j = true) ↔
        flagged (matchFlags g tag) i.castSucc = true := by
      constructor
      · rintro ⟨j, hj, hflag⟩
        obtain rfl : j = i.castSucc := Fin.ext (Nat.succ.inj hj)
        exact hflag
      · exact fun hflag => ⟨i.castSucc, rfl, hflag⟩
    rw [hbelow, flagged_matchFlags_succ_iff, BitVec.xor_eq_zero_iff, xor_eq_one_iff]
    constructor
    · rintro ⟨h | h, hne⟩
      · exact absurd h hne
      · exact h
    · rintro ⟨hbyte, hflag⟩
      exact ⟨.inr ⟨hbyte, hflag⟩, hbyte ▸ xor_one_ne_self tag⟩

/-- At most 7 lanes are false positives: lane 0 is none (R73). -/
theorem countP_falsePositives_le (g : Group) (tag : Byte) :
    (List.finRange 8).countP (fun i => flagged (matchFlags g tag) i && g.get i != tag) ≤ 7 := by
  calc (List.finRange 8).countP (fun i => flagged (matchFlags g tag) i && g.get i != tag)
      ≤ (List.finRange 8).countP (fun i => i != 0) := by
        refine List.countP_mono_left fun i _ hi => ?_
        simp only [Bool.and_eq_true, bne_iff_ne] at hi ⊢
        rintro rfl
        exact hi.2 (match_of_flagged_zero hi.1)
    _ = 7 := by decide

/-- Flipping the lowest bit of a byte leaves its high bit (R75). -/
theorem highBit_xor_one (tag : Byte) : 0x80 ≤ (tag ^^^ 1#8).toNat ↔ 0x80 ≤ tag.toNat := by
  have hmsb : (tag ^^^ 1#8).msb = tag.msb := by rw [BitVec.msb_xor]; exact Bool.xor_false _
  simpa [BitVec.msb_eq_decide] using hmsb

/-- The byte of a flagged lane has the tag's high bit (R75). -/
theorem highBit_of_flagged {g : Group} {tag : Byte} {i : Fin 8}
    (h : flagged (matchFlags g tag) i = true) : 0x80 ≤ (g.get i).toNat ↔ 0x80 ≤ tag.toNat := by
  obtain hbyte | ⟨hbyte, -⟩ := match_or_above_match_of_flagged h
  · rw [hbyte]
  · rw [hbyte, highBit_xor_one]

/-- A flagged lane is an empty slot exactly when the tag has its high bit set (R75). -/
theorem flagged_emptyFlags_iff_of_flagged {g : Group} {tag : Byte} {i : Fin 8}
    (h : flagged (matchFlags g tag) i = true) :
    flagged (emptyFlags g) i = true ↔ 0x80 ≤ tag.toNat := by
  rw [flagged_emptyFlags_iff, highBit_of_flagged h]

end Sys2Proof

namespace Sys2Proof.Machine

/-! ### Masks without a flag -/

/-- A mask of lane flags that flags no lane is 0 (R23). -/
theorem eq_zero_of_no_flag {m : Word} (hm : OnlyHighBits m) (h : ∀ i, ¬ flagged m i = true) :
    m = 0#64 := by
  by_contra hne
  obtain ⟨i, hi⟩ := exists_ctz_eq_laneHighPos hm hne
  exact h i (by rw [flagged, ← hi]; exact getLsbD_ctz hne)

/-- `AND` keeps the flags that both words have. -/
theorem flagged_and_iff {v w : Word} {i : Fin 8} :
    flagged (v &&& w) i = true ↔ flagged v i = true ∧ flagged w i = true := by
  rw [flagged, BitVec.getLsbD_and, Bool.and_eq_true]
  rfl

/-- `NOT` turns every flag over. -/
theorem flagged_not_iff {w : Word} {i : Fin 8} : flagged (~~~w) i = true ↔ ¬ flagged w i = true := by
  have hpos := ((exists_eq_laneHighPos_iff (laneHighPos i)).mp ⟨i, rfl⟩).1
  simp [flagged, hpos]

/-! ### The drained sequence (R100) -/

/-- At most one flag a lane. -/
theorem flaggedSlots_length_le (m : Word) : (flaggedSlots m).length ≤ 8 :=
  (List.length_filter_le _ _).trans_eq List.length_finRange

/-- A drain yields the flagged slots in order, as many as it has `NEXT` commands. -/
theorem drainFrom_eq_take (n : Nat) {s : State} (hv : s.qValid = true) (hm : OnlyHighBits s.eqMask) :
    drainFrom n s = (flaggedSlots s.eqMask).take n := by
  induction n generalizing s with
  | zero => rfl
  | succ n ih =>
    have hresp := drainStep_resp s
    rw [lowestSlot_eq_head? hm] at hresp
    have hrest : drainFrom n (drainStep s) = (flaggedSlots s.eqMask).tail.take n := by
      rw [ih ((drainStep_qValid s).trans hv)
        (drainStep_eqMask s ▸ onlyHighBits_clearLowest hm), drainStep_eqMask,
        flaggedSlots_clearLowest hm]
    cases hslots : flaggedSlots s.eqMask with
    | nil =>
      rw [hslots] at hresp
      exact drainFrom_of_none (exec_next hv) hresp (n + 1)
    | cons i is =>
      rw [hslots] at hresp hrest
      rw [drainFrom_of_some (exec_next hv) hresp, hrest, List.take_succ_cons, List.tail_cons]

/-- A full drain yields every flagged slot. -/
theorem drainFrom_drainBound {s : State} (hv : s.qValid = true) (hm : OnlyHighBits s.eqMask) :
    drainFrom drainBound s = flaggedSlots s.eqMask := by
  rw [drainFrom_eq_take drainBound hv hm]
  exact List.take_of_length_le ((flaggedSlots_length_le _).trans (by decide))

/-- The full drain right after a `LOAD`. -/
theorem drainFrom_loadResult (g : Group) (tag : Byte) (s : State) :
    drainFrom drainBound (loadResult g tag s) = flaggedSlots (matchFlags g tag) :=
  drainFrom_drainBound rfl (onlyHighBits_matchFlags g tag)

/-- The drained sequence is the list of the lanes the `LOAD` flags, whatever was held before (R100). -/
theorem drained_eq_flaggedSlots (g : Group) (tag : Byte) (s : State) :
    drained g tag s = flaggedSlots (matchFlags g tag) := by
  simp only [drained, exec_load_eq_loadResult, drainFrom_loadResult]

/-- No flagged lane is hidden from the drain (R73). -/
theorem mem_drained_iff {g : Group} {tag : Byte} {s : State} {i : Fin 8} :
    i ∈ drained g tag s ↔ flagged (matchFlags g tag) i = true := by
  rw [drained_eq_flaggedSlots, mem_flaggedSlots]

/-! ### The statements -/

/-- Settles O32: the recurrence and the borrow are those of `zbd` on `cmp`; the runs follow by induction
over the lanes. -/
theorem eqMaskLaneLaw : Obligations.EqMaskLaneLaw := fun g tag s =>
  ⟨_, exec_load g tag s, flagged_matchFlags_zero_iff g tag, flagged_matchFlags_succ_iff g tag,
    flagged_zbd_iff (g.cmp tag), flagged_matchFlags_iff_matchRun g tag,
    fun _ => exists_lane_of_getLsbD (onlyHighBits_matchFlags g tag)⟩

/-- Settles O33: a match is flagged, and the drain yields every flagged lane. -/
theorem noFalseNegatives : Obligations.NoFalseNegatives := fun g tag s _ h =>
  ⟨_, exec_load g tag s, flagged_matchFlags_of_match h,
    mem_drained_iff.mpr (flagged_matchFlags_of_match h)⟩

/-- Settles O34: every flagged lane ends a run that begins at a match. -/
theorem falsePositivesExactly : Obligations.FalsePositivesExactly := by
  intro g tag s
  refine ⟨_, exec_load g tag s, falsePositive_iff g tag, match_of_flagged_zero, ?runFlagged, ?exactMask,
    ?noMatch, ?matchBelow, countP_falsePositives_le g tag, fun _ => mem_drained_iff.mpr⟩
  case runFlagged =>
    exact fun j i hle hj hrun => (flagged_matchFlags_iff_matchRun g tag i).mpr ⟨j, hle, hj, hrun⟩
  case exactMask =>
    refine fun hno i => ⟨fun hflag => ?_, flagged_matchFlags_of_match⟩
    obtain h | ⟨h, -⟩ := match_or_above_match_of_flagged hflag
    · exact h
    · exact absurd h (hno i)
  case noMatch =>
    refine fun hno => eq_zero_of_no_flag (onlyHighBits_matchFlags g tag) fun i hflag => ?_
    obtain ⟨j, -, hj, -⟩ := (flagged_matchFlags_iff_matchRun g tag i).mp hflag
    exact hno j hj
  case matchBelow =>
    intro i hflag hne
    obtain h | ⟨-, hbelow⟩ := match_or_above_match_of_flagged hflag
    · exact absurd h hne
    · exact hbelow

/-- Settles O35: the empty mask is the group word's own high bits. -/
theorem emptyMaskIsExact : Obligations.EmptyMaskIsExact := fun g tag s =>
  ⟨_, exec_load g tag s, flagged_emptyFlags_iff g,
    fun _ => exists_lane_of_getLsbD (onlyHighBits_emptyFlags g)⟩

/-- Settles O36: a flagged lane's byte has the tag's high bit, and that bit is the lane's empty flag. -/
theorem matchesAndEmptiesByTheTagsHighBit : Obligations.MatchesAndEmptiesByTheTagsHighBit := by
  intro g tag s
  have honly : ∀ w, OnlyHighBits (matchFlags g tag &&& w) :=
    onlyHighBits_and (onlyHighBits_matchFlags g tag)
  refine ⟨_, exec_load g tag s, fun htag => ⟨?disjoint, ?below⟩,
    fun htag => ⟨?within, ?above⟩, ?canonical⟩
  case disjoint =>
    refine eq_zero_of_no_flag (honly _) fun i h => ?_
    obtain ⟨hflag, hempty⟩ := flagged_and_iff.mp h
    exact not_le.mpr htag ((flagged_emptyFlags_iff_of_flagged hflag).mp hempty)
  case below => exact fun i hflag => lt_of_not_ge (mt (highBit_of_flagged hflag).mp (not_le.mpr htag))
  case within =>
    refine eq_zero_of_no_flag (honly _) fun i h => ?_
    obtain ⟨hflag, hnot⟩ := flagged_and_iff.mp h
    exact flagged_not_iff.mp hnot ((flagged_emptyFlags_iff_of_flagged hflag).mpr htag)
  case above => exact fun i hflag => (highBit_of_flagged hflag).mpr htag
  case canonical =>
    rintro rfl i h
    exact flagged_matchFlags_of_match h

/-- Settles O38: the lane law at tag 0, where `XOR` with the tag changes nothing. -/
theorem tagZeroFlagsZeroBytes : Obligations.TagZeroFlagsZeroBytes := by
  intro g s
  have htile : tile 0x00#8 = 0#64 := by decide
  have hcmp : g.cmp 0x00#8 = g.word := by rw [Group.cmp, htile, BitVec.xor_zero]
  exact ⟨_, exec_load g 0x00#8 s, htile, hcmp, congrArg zbd hcmp,
    flagged_matchFlags_iff_matchRun g 0x00#8⟩

/-- Settles O40: a `LOAD` writes both masks from its operands, and the drain reads nothing else. -/
theorem loadOverAHeldQueryStartsAfresh : Obligations.LoadOverAHeldQueryStartsAfresh := by
  intro g tag is s s' _
  refine ⟨loadResult g tag s', exec_load_eq_loadResult g tag s', rfl, rfl, ?_, ?_⟩
  · rw [answer_of_next (exec_next rfl), drainStep_resp, drained_eq_flaggedSlots,
      ← lowestSlot_eq_head? (onlyHighBits_matchFlags g tag)]
    rfl
  · rw [drainFrom_loadResult, drained_eq_flaggedSlots]

/-- Settles O31: the word is the canonical one, and the formula is the two masks' definition. -/
theorem loadConstructsTheQuery : Obligations.LoadConstructsTheQuery := fun g tag s =>
  ⟨decode_encode_load g tag, exec_load g tag s⟩

/-- Settles O37: what a `LOAD` writes, answers and has drained is a function of its operands. -/
theorem loadIsPure : Obligations.LoadIsPure := fun g tag s t =>
  ⟨_, _, exec_load g tag s, exec_load g tag t, rfl, rfl, rfl, rfl,
    (drained_eq_flaggedSlots g tag s).trans (drained_eq_flaggedSlots g tag t).symm⟩

end Sys2Proof.Machine

/-! PROOFS. The statements about `ANYE` and `FSTE` (spec/41_empty_queries.md). -/

namespace Sys2Proof

/-- The `op` of a word joined from its `op` and its ignored fields (R57). -/
theorem opField_append (op : BitVec 2) (low : BitVec 72) : opField (op ++ low) = op :=
  BitVec.extractLsb'_append_eq_left

/-- The empty flag of a lane is clear exactly when its byte is below 0x80 (R74). -/
theorem flagged_emptyFlags_eq_false_iff (g : Group) (i : Fin 8) :
    flagged (emptyFlags g) i = false ↔ (g.get i).toNat < 0x80 := by
  rw [← Bool.not_eq_true, flagged_emptyFlags_iff, not_le]

end Sys2Proof

namespace Sys2Proof.Machine

/-! ### The lowest flag of a mask of lane flags (R23) -/

/-- What `FSTE` and `NEXT` answer is the lowest flagged lane (R86, R95). -/
theorem lowestSlot_eq_some_iff {m : Word} (hm : OnlyHighBits m) {i : Fin 8} :
    lowestSlot m = some i ↔ flagged m i = true ∧ ∀ j < i, flagged m j = false := by
  rw [lowestSlot_eq_head? hm, flaggedSlots, List.head?_filter, ← Fin.find?_eq_find?_finRange,
    Fin.find?_eq_some_iff]

/-- A mask of lane flags is 0 exactly when it flags no lane. -/
theorem eq_zero_iff_no_flag {m : Word} (hm : OnlyHighBits m) :
    m = 0#64 ↔ ∀ i, flagged m i = false := by
  constructor
  · rintro rfl i
    exact BitVec.getLsbD_zero
  · exact fun h => eq_zero_of_no_flag hm fun i => Bool.eq_false_iff.mp (h i)

/-! ### The answers with a query held -/

/-- The answer of an admitted `ANYE` (R85). -/
theorem answer_anye {s : State} (hv : s.qValid = true) :
    answer .anye s = some (.bool (s.emptyMask != 0#64)) :=
  answer_of_next (exec_anye hv)

/-- The answer of an admitted `FSTE` (R86). -/
theorem answer_fste {s : State} (hv : s.qValid = true) :
    answer .fste s = some (.index (lowestSlot s.emptyMask)) :=
  answer_eq_index_lowestSlot hv (.inl ⟨rfl, rfl⟩)

theorem answer_anye_eq_true_iff {s : State} (hv : s.qValid = true) :
    answer .anye s = some (.bool true) ↔ s.emptyMask ≠ 0#64 := by
  simp [answer_anye hv]

theorem answer_anye_eq_false_iff {s : State} (hv : s.qValid = true) :
    answer .anye s = some (.bool false) ↔ s.emptyMask = 0#64 := by
  simp [answer_anye hv]

theorem answer_fste_eq_iff {s : State} (hv : s.qValid = true) {o : Option (Fin 8)} :
    answer .fste s = some (.index o) ↔ lowestSlot s.emptyMask = o := by
  simp [answer_fste hv]

theorem answer_fste_eq_none_iff {s : State} (hv : s.qValid = true) :
    answer .fste s = some (.index none) ↔ s.emptyMask = 0#64 := by
  rw [answer_fste_eq_iff hv, lowestSlot_eq_none_iff]

/-- `FSTE` answers an index exactly when the mask has a flag. -/
theorem exists_answer_fste_eq_some_iff {s : State} (hv : s.qValid = true) :
    (∃ i, answer .fste s = some (.index (some i))) ↔ s.emptyMask ≠ 0#64 := by
  simp only [answer_fste_eq_iff hv, ← Option.isSome_iff_exists, lowestSlot_isSome_iff]

/-! ### Sequences with no `LOAD` (R87, R89) -/

/-- A command that is no `LOAD` leaves the empty mask. -/
theorem emptyMask_of_exec_noLoad {i : Instr} {s t : State} (hi : NoLoad [i])
    (h : exec i s = .next t) : t.emptyMask = s.emptyMask := by
  obtain ⟨-, hquery, -⟩ := commandFrames i s t h
  exact (hquery hi).2

/-- With a query held, commands that hold no `LOAD` all complete; they leave the query held and its empty
mask as it was. -/
theorem execAll_noLoad_keeps_emptyMask {is : List Instr} {s : State} (hv : s.qValid = true)
    (his : NoLoad is) :
    ∃ t, execAll is s = .next t ∧ t.qValid = true ∧ t.emptyMask = s.emptyMask := by
  induction is generalizing s with
  | nil => exact ⟨s, execAll_nil s, hv, rfl⟩
  | cons i is ih =>
    obtain ⟨hi, hrest⟩ : NoLoad [i] ∧ NoLoad is := by simpa [NoLoad] using his
    obtain ⟨u, hu⟩ := exists_exec_eq_next_of_valid i hv
    obtain ⟨t, ht, htv, hmask⟩ := ih (qValid_of_exec_eq_next hu) hrest
    exact ⟨t, (execAll_cons_of_next hu is).trans ht, htv,
      hmask.trans (emptyMask_of_exec_noLoad hi hu)⟩

/-- A `LOAD` and commands that hold no other all complete, and leave its query's empty mask. -/
theorem execAll_load_noLoad_keeps_emptyMask (g : Group) (tag : Byte) {is : List Instr} (s : State)
    (his : NoLoad is) : ∃ t, execAll (.load g tag :: is) s = .next t ∧ t.qValid = true ∧
      t.emptyMask = emptyFlags g := by
  rw [execAll_cons_of_next (exec_load_eq_loadResult g tag s)]
  exact execAll_noLoad_keeps_emptyMask (s := loadResult g tag s) rfl his

/-! ### The statements -/

/-- Settles O42: `op` alone decides the decoding, and the answer is read off the empty mask. -/
theorem anyeAnswersWhetherASlotIsEmpty : Obligations.AnyeAnswersWhetherASlotIsEmpty := by
  refine ⟨fun low => decode_eq_anye_iff.mpr (opField_append _ low), fun s hv => ?_,
    fun s hv => admitQuery_of_invalid hv _⟩
  rw [exec_anye hv, bne, beq_eq_decide, ← decide_not]
  rfl

/-- Settles O43: `op` alone decides the decoding, and the answer is the head of the list of flagged
lanes. -/
theorem fsteAnswersTheLowestEmptySlot : Obligations.FsteAnswersTheLowestEmptySlot := by
  refine ⟨fun low => decode_eq_fste_iff.mpr (opField_append _ low), fun s hv => exec_fste hv,
    fun s hinv hv i => ?_, fun s hv => admitQuery_of_invalid hv _⟩
  exact (answer_fste_eq_iff hv).trans (lowestSlot_eq_some_iff (hinv hv).2)

/-- Settles O44: both answers are read off the empty mask, which only a `LOAD` writes. -/
theorem emptyAnswersStandUntilTheNextLoad : Obligations.EmptyAnswersStandUntilTheNextLoad := by
  intro is s hv his
  obtain ⟨t, ht, htv, hmask⟩ := execAll_noLoad_keeps_emptyMask hv his
  refine ⟨t, ht, ?_, ?_, ?_⟩
  · rw [answer_anye htv, answer_anye hv, hmask]
  · rw [answer_fste htv, answer_fste hv, hmask]
  · rintro q (rfl | rfl)
    · exact ⟨_, exec_anye htv, rfl, rfl, rfl⟩
    · exact ⟨_, exec_fste htv, rfl, rfl, rfl⟩

/-- Settles O45: each side says whether the empty mask is 0. -/
theorem anyeAndFsteAgree : Obligations.AnyeAndFsteAgree := fun _ hv =>
  ⟨(answer_anye_eq_true_iff hv).trans (exists_answer_fste_eq_some_iff hv).symm,
    (answer_anye_eq_false_iff hv).trans (answer_fste_eq_none_iff hv).symm⟩

/-- Settles O46: the empty mask is still the `LOAD`'s, and its flags are the bytes' high bits. -/
theorem emptyAnswersInTermsOfTheBytes : Obligations.EmptyAnswersInTermsOfTheBytes := by
  intro g tag is s his
  obtain ⟨t, ht, htv, hmask⟩ := execAll_load_noLoad_keeps_emptyMask g tag s his
  have hzero : t.emptyMask = 0#64 ↔ ∀ i : Fin 8, (g.get i).toNat < 0x80 := by
    simp only [hmask, eq_zero_iff_no_flag (onlyHighBits_emptyFlags g), flagged_emptyFlags_eq_false_iff]
  refine ⟨t, ht, ?_, fun i => ?_, (answer_fste_eq_none_iff htv).trans hzero⟩
  · rw [answer_anye_eq_true_iff htv, ne_eq, hzero]
    simp only [not_forall, not_lt]
  · rw [answer_fste_eq_iff htv, hmask, lowestSlot_eq_some_iff (onlyHighBits_emptyFlags g),
      flagged_emptyFlags_iff]
    simp only [flagged_emptyFlags_eq_false_iff]

end Sys2Proof.Machine

/-! PROOFS. The statements about `NEXT`: one step of the drain, flags that only a `LOAD` sets, and the
state after `k` steps as a suffix of the list of flagged lanes (spec/42_drain.md). -/

namespace Sys2Proof.Machine

/-! ### One step of the drain (R95, R102) -/

theorem drainStep_of_eq_zero {s : State} (h : s.eqMask = 0#64) :
    drainStep s = { s with resp := some (.index none) } := by
  rw [drainStep, if_pos h, lowestSlot_eq_none_iff.mpr h]
  rfl

theorem drainStep_of_ne_zero {s : State} (h : s.eqMask ≠ 0#64) :
    drainStep s = { s with
      resp := some (.index (some (slotOf (ctz s.eqMask))))
      eqMask := clearLowest s.eqMask } := by
  rw [drainStep, if_neg h, lowestSlot_of_ne_zero h]
  rfl

/-- What a `NEXT` that completes leaves. -/
theorem exec_next_eq_next {s t : State} (h : exec .next s = .next t) :
    s.qValid = true ∧ t = drainStep s := admitQuery_eq_next h

/-- The answer of an admitted `NEXT` (R95). -/
theorem answer_next {s : State} (hv : s.qValid = true) :
    answer .next s = some (.index (lowestSlot s.eqMask)) :=
  answer_eq_index_lowestSlot hv (.inr ⟨rfl, rfl⟩)

theorem answer_next_eq_iff {s : State} (hv : s.qValid = true) {o : Option (Fin 8)} :
    answer .next s = some (.index o) ↔ lowestSlot s.eqMask = o := by
  simp [answer_next hv]

/-- A step of the drain unflags the lane it answers, and no other (R95). -/
theorem flagged_clearLowest_of_lowestSlot {m : Word} (hm : OnlyHighBits m) {i : Fin 8}
    (h : lowestSlot m = some i) (j : Fin 8) :
    flagged (clearLowest m) j = (flagged m j && decide (j ≠ i)) := by
  have hne : m ≠ 0#64 := lowestSlot_isSome_iff.mp (Option.isSome_of_eq_some h)
  obtain ⟨l, hl⟩ := exists_ctz_eq_laneHighPos hm hne
  rw [lowestSlot_of_ne_zero hne, hl, slotOf_laneHighPos] at h
  obtain rfl : l = i := Option.some.inj h
  exact flagged_clearLowest hne hl j

/-- Settles O47: the two cases of a drain step; under the mask invariant its answer is the lowest flagged
lane, and that lane's bit is the one cleared. -/
theorem nextYieldsAndClearsTheLowestMatch : Obligations.NextYieldsAndClearsTheLowestMatch := by
  refine ⟨fun low => decode_eq_next_iff.mpr (opField_append _ low), fun s hv => ?step,
    fun s hinv hv hne => ?lowest, fun s hv => admitQuery_of_invalid hv _⟩
  case step =>
    rw [exec_next hv]
    split
    · rename_i h
      rw [drainStep_of_eq_zero h]
    · rename_i h
      rw [drainStep_of_ne_zero h]
      rfl
  case lowest =>
    have hm : OnlyHighBits s.eqMask := (hinv hv).1
    obtain ⟨i, hi⟩ := Option.isSome_iff_exists.mp (lowestSlot_isSome_iff.mpr hne)
    obtain ⟨hflag, hlow⟩ := (lowestSlot_eq_some_iff hm).mp hi
    refine ⟨drainStep s, i, exec_next hv, ?_, hflag, hlow, fun j => ?_⟩
    · rw [drainStep_resp, hi]
    · rw [drainStep_eqMask, flagged_clearLowest_of_lowestSlot hm hi]

/-! ### Flags that no command but `LOAD` sets (R97, R99) -/

/-- A word each of whose bits is a bit of another has no bit outside it. -/
theorem and_not_eq_zero_of_bits {v w : Word} (h : ∀ k, v.getLsbD k = true → w.getLsbD k = true) :
    v &&& ~~~w = 0#64 := by
  refine BitVec.eq_of_getLsbD_eq fun k _ => ?_
  cases hk : v.getLsbD k with
  | false => simp [hk]
  | true => simp [h k hk]

/-- A command that is no `LOAD` sets no match flag: the queries leave `eq_mask`, and `NEXT` clears a
bit. -/
theorem eqMask_bits_of_exec_noLoad {i : Instr} {s t : State} (hi : NoLoad [i])
    (h : exec i s = .next t) (k : Nat) (hk : t.eqMask.getLsbD k = true) :
    s.eqMask.getLsbD k = true := by
  obtain ⟨-, -, hquery, hnext⟩ := commandFrames i s t h
  obtain hi | hi | hi := noLoad_singleton_iff.mp hi
  · exact hquery (.inl hi) ▸ hk
  · exact hquery (.inr hi) ▸ hk
  · exact (hnext hi).1 k hk

/-- Commands that hold no `LOAD` set no match flag. -/
theorem eqMask_bits_of_execAll_noLoad {is : List Instr} {s t : State} (his : NoLoad is)
    (h : execAll is s = .next t) (k : Nat) (hk : t.eqMask.getLsbD k = true) :
    s.eqMask.getLsbD k = true :=
  execAll_keeps (P := fun u => ∀ k, u.eqMask.getLsbD k = true → s.eqMask.getLsbD k = true)
    (ok := fun i => ∀ g tag, i ≠ .load g tag)
    (fun _ _ _ hi hu huv k hk =>
      hu k (eqMask_bits_of_exec_noLoad (by simpa [NoLoad] using hi) huv k hk))
    his (fun _ => id) h k hk

/-- A drain that is over stays over until the next `LOAD` (R97). -/
theorem eqMask_eq_zero_of_execAll_noLoad {is : List Instr} {s t : State} (his : NoLoad is)
    (h : execAll is s = .next t) (hs : s.eqMask = 0#64) : t.eqMask = 0#64 := by
  refine BitVec.eq_of_getLsbD_eq fun k _ => ?_
  rw [← hs, Bool.eq_iff_iff]
  refine ⟨eqMask_bits_of_execAll_noLoad his h k, fun hk => ?_⟩
  simp [hs] at hk

/-- Settles O49: the answer `none` says the mask is 0, and no command but `LOAD` sets a flag again. -/
theorem exhaustionIsSticky : Obligations.ExhaustionIsSticky := by
  intro is s s' h hnone his
  obtain ⟨hv, rfl⟩ := exec_next_eq_next h
  have hslot : lowestSlot s.eqMask = none := by simpa [drainStep_resp] using hnone
  have hzero : (drainStep s).eqMask = 0#64 := by
    rw [drainStep_eqMask, lowestSlot_eq_none_iff.mp hslot]
    rfl
  obtain ⟨t, ht, htv, -⟩ := execAll_noLoad_keeps_emptyMask ((drainStep_qValid s).trans hv) his
  have htzero : t.eqMask = 0#64 := eqMask_eq_zero_of_execAll_noLoad his ht hzero
  refine ⟨hzero, t, drainStep t, ht, exec_next htv, ?_⟩
  rw [drainStep_of_eq_zero htzero]
  exact ⟨rfl, htzero, rfl, rfl, rfl⟩

/-- With a query held, commands that complete leave one held, and keep the mask invariant. -/
theorem execAll_keeps_valid_maskInv {is : List Instr} {s t : State} (hv : s.qValid = true)
    (hinv : s.MaskInv) (h : execAll is s = .next t) : t.qValid = true ∧ t.MaskInv :=
  execAll_keeps (P := fun u => u.qValid = true ∧ u.MaskInv) (ok := fun _ => True)
    (fun _ _ _ _ hu huv => ⟨qValid_of_exec_eq_next huv, exec_keeps_maskInv hu.2 huv⟩)
    (fun _ _ => trivial) ⟨hv, hinv⟩ h

/-- Settles O51: an answered index is a cleared flag, and no command but `LOAD` sets a flag again; what a
`LOAD` has drained is a function of its operands. -/
theorem drainCannotBeRestarted : Obligations.DrainCannotBeRestarted := by
  refine ⟨fun is s t his h => and_not_eq_zero_of_bits (eqMask_bits_of_execAll_noLoad his h),
    ?notAgain, fun g tag is s t _ => ?sameSequence⟩
  case notAgain =>
    intro is s s' t i hinv h hi his ht hagain
    obtain ⟨hv, rfl⟩ := exec_next_eq_next h
    have hslot : lowestSlot s.eqMask = some i := by simpa [drainStep_resp] using hi
    have hcleared : flagged (drainStep s).eqMask i = false := by
      simp [drainStep_eqMask, flagged_clearLowest_of_lowestSlot (hinv hv).1 hslot]
    obtain ⟨htv, htinv⟩ := execAll_keeps_valid_maskInv ((drainStep_qValid s).trans hv)
      (exec_keeps_maskInv hinv h) ht
    obtain ⟨hflag, -⟩ :=
      (lowestSlot_eq_some_iff (htinv htv).1).mp ((answer_next_eq_iff htv).mp hagain)
    have hset : flagged (drainStep s).eqMask i = true :=
      eqMask_bits_of_execAll_noLoad his ht (laneHighPos i) hflag
    rw [hcleared] at hset
    cases hset
  case sameSequence => rw [drained_eq_flaggedSlots, drained_eq_flaggedSlots]

/-! ### The drained sequence as a list (R96, R98, R100) -/

/-- A drain on a block that holds no query yields nothing: its first `NEXT` is refused. -/
theorem drainFrom_of_invalid (n : Nat) {s : State} (hv : s.qValid = false) : drainFrom n s = [] := by
  have hrefused : exec .next s = .refused .queryBeforeLoad := admitQuery_of_invalid hv _
  cases n with
  | zero => rfl
  | succ n => simp only [drainFrom, hrefused]

theorem drained_pairwise_lt (g : Group) (tag : Byte) (s : State) :
    (drained g tag s).Pairwise (· < ·) :=
  drained_eq_flaggedSlots g tag s ▸ (flaggedSlots_sortedLT _).pairwise

/-- Settles O48: both are beginnings of the increasing list of flagged lanes. -/
theorem drainIsStrictlyAscending : Obligations.DrainIsStrictlyAscending := by
  refine ⟨drained_pairwise_lt, fun n s hinv => ?_⟩
  cases hv : s.qValid with
  | false => rw [drainFrom_of_invalid n hv]; exact List.Pairwise.nil
  | true =>
    rw [drainFrom_eq_take n hv (hinv hv).1]
    exact (flaggedSlots_sortedLT _).pairwise.take

/-- The set bits of a mask of lane flags, lowest first, are the high bits of the lanes it flags. -/
theorem filter_getLsbD_eq_map_flaggedSlots {m : Word} (hm : OnlyHighBits m) :
    ((List.range 64).filter fun k => m.getLsbD k) = (flaggedSlots m).map laneHighPos := by
  have hmono : ∀ i j : Fin 8, i < j → laneHighPos i < laneHighPos j := by
    intro i j hij
    simp only [laneHighPos]
    omega
  refine List.SortedLT.eq_of_mem_iff ((List.sortedLT_range 64).pairwise.filter _).sortedLT
    ((flaggedSlots_sortedLT m).pairwise.map laneHighPos hmono).sortedLT fun k => ?_
  rw [List.mem_filter, List.mem_range, List.mem_map]
  constructor
  · rintro ⟨-, hk⟩
    obtain ⟨i, rfl⟩ := exists_lane_of_getLsbD hm hk
    exact ⟨i, mem_flaggedSlots.mpr hk, rfl⟩
  · rintro ⟨i, hi, rfl⟩
    exact ⟨BitVec.lt_of_getLsbD (mem_flaggedSlots.mp hi), mem_flaggedSlots.mp hi⟩

/-- A mask of lane flags has as many set bits as it flags slots. -/
theorem setBits_eq_length_flaggedSlots {m : Word} (hm : OnlyHighBits m) :
    setBits m = (flaggedSlots m).length := by
  rw [setBits, List.countP_eq_length_filter, filter_getLsbD_eq_map_flaggedSlots hm, List.length_map]

/-- After `k` `NEXT` commands the first `k` flagged slots are gone. -/
theorem execAll_replicate_next (k : Nat) {s : State} (hv : s.qValid = true)
    (hm : OnlyHighBits s.eqMask) :
    ∃ t, execAll (List.replicate k .next) s = .next t ∧ t.qValid = true ∧ OnlyHighBits t.eqMask ∧
      flaggedSlots t.eqMask = (flaggedSlots s.eqMask).drop k := by
  induction k generalizing s with
  | zero => exact ⟨s, rfl, hv, hm, rfl⟩
  | succ k ih =>
    obtain ⟨t, ht, htv, htm, hslots⟩ := ih ((drainStep_qValid s).trans hv)
      (drainStep_eqMask s ▸ onlyHighBits_clearLowest hm)
    refine ⟨t, (execAll_cons_of_next (exec_next hv) _).trans ht, htv, htm, ?_⟩
    rw [hslots, drainStep_eqMask, flaggedSlots_clearLowest hm, List.drop_tail]

/-- The `NEXT` after a `LOAD` and `k` others answers `none` exactly when `k` is at least the number of
flags (R98). -/
theorem answer_next_after_load_and_nexts (g : Group) (tag : Byte) (s : State) (k : Nat) :
    ∃ t, execAll (.load g tag :: List.replicate k .next) s = .next t ∧
      (answer .next t = some (.index none) ↔ setBits (matchFlags g tag) ≤ k) := by
  obtain ⟨t, ht, htv, htm, hslots⟩ :=
    execAll_replicate_next k (s := loadResult g tag s) rfl (onlyHighBits_matchFlags g tag)
  refine ⟨t, (execAll_cons_of_next (exec_load_eq_loadResult g tag s) _).trans ht, ?_⟩
  calc answer .next t = some (.index none)
      ↔ lowestSlot t.eqMask = none := answer_next_eq_iff htv
    _ ↔ (flaggedSlots (matchFlags g tag)).drop k = [] := by
      rw [lowestSlot_eq_head? htm, List.head?_eq_none_iff, hslots]
      rfl
    _ ↔ setBits (matchFlags g tag) ≤ k := by
      rw [List.drop_eq_nil_iff, setBits_eq_length_flaggedSlots (onlyHighBits_matchFlags g tag)]

/-- Settles O50: a bit for each flagged lane, at most 8, and a `NEXT` drops one of the list. -/
theorem drainLengthIsTheNumberOfFlags : Obligations.DrainLengthIsTheNumberOfFlags := by
  intro g tag s
  have hbound : setBits (matchFlags g tag) ≤ 8 := setBits_le_eight (onlyHighBits_matchFlags g tag)
  refine ⟨loadResult g tag s, exec_load_eq_loadResult g tag s, ?length, hbound,
    answer_next_after_load_and_nexts g tag s, ?ninth⟩
  case length =>
    rw [drained_eq_flaggedSlots]
    exact (setBits_eq_length_flaggedSlots (onlyHighBits_matchFlags g tag)).symm
  case ninth =>
    obtain ⟨t, ht, hnone⟩ := answer_next_after_load_and_nexts g tag s 8
    exact ⟨t, ht, hnone.mpr hbound⟩

/-- Every drained slot that holds no match sits directly above a drained slot (R73, R100). -/
theorem drained_falsePositive {g : Group} {tag : Byte} {s : State} {i : Fin 8}
    (hi : i ∈ drained g tag s) (hne : g.get i ≠ tag) :
    g.get i = tag ^^^ 1#8 ∧ ∃ j ∈ drained g tag s, j.val + 1 = i.val := by
  obtain ⟨hbyte, j, hj, hflag⟩ := (falsePositive_iff g tag i).mp ⟨mem_drained_iff.mp hi, hne⟩
  exact ⟨hbyte, j, mem_drained_iff.mpr hflag, hj⟩

/-- A drain right after a `LOAD` that is given `NEXT` commands enough is the drained sequence,
whichever their number (R100). -/
theorem drainFrom_loadResult_of_le {n : Nat} (hn : drainBound ≤ n) (g : Group) (tag : Byte)
    (s : State) : drainFrom n (loadResult g tag s) = drained g tag s := by
  have hlen : (flaggedSlots (matchFlags g tag)).length ≤ n :=
    (flaggedSlots_length_le _).trans (le_trans (by decide) hn)
  rw [drained_eq_flaggedSlots, drainFrom_eq_take n rfl (onlyHighBits_matchFlags g tag)]
  exact List.take_of_length_le hlen

/-- Settles O52: the list is that of the `LOAD`'s flagged lanes, in which the operands alone stand. -/
theorem drainedIsTheListOfFlaggedLanes : Obligations.DrainedIsTheListOfFlaggedLanes :=
  fun g tag s => ⟨loadResult g tag s, exec_load_eq_loadResult g tag s,
    drained_eq_flaggedSlots g tag s, drained_pairwise_lt g tag s,
    fun _ h => mem_drained_iff.mpr (flagged_matchFlags_of_match h),
    fun _ => drained_falsePositive,
    fun _ hn => drainFrom_loadResult_of_le hn g tag s,
    fun t => (drained_eq_flaggedSlots g tag t).trans (drained_eq_flaggedSlots g tag s).symm⟩

/-! ### Independence of the two masks (R101) -/

/-- A step of the drain neither reads nor writes the empty mask. -/
theorem drainStep_withEmptyMask (s : State) (e : Word) :
    drainStep { s with emptyMask := e } = { drainStep s with emptyMask := e } := by
  unfold drainStep
  split <;> rfl

/-- With a query held, `ANYE` and `FSTE` write the answer alone, a function of the empty mask alone. -/
theorem exists_exec_eq_respond {q : Instr} (hq : q = .anye ∨ q = .fste) :
    ∃ answerOf : Word → Response, ∀ s : State, s.qValid = true →
      exec q s = .next (respond (answerOf s.emptyMask) s) := by
  obtain rfl | rfl := hq
  · exact ⟨fun m => .bool (m != 0#64), fun _ => exec_anye⟩
  · exact ⟨fun m => .index (lowestSlot m), fun _ => exec_fste⟩

/-- Settles O53: a `NEXT` leaves the mask the queries read, and they leave the mask it reads. -/
theorem drainAndEmptyQueriesAreIndependent : Obligations.DrainAndEmptyQueriesAreIndependent := by
  refine ⟨fun s hv => ?next, fun q s hq hv => ?query, fun q s hq hv => ?exchange⟩
  case next =>
    refine ⟨drainStep s, exec_next hv, drainStep_emptyMask s, fun e => ?_⟩
    rw [← drainStep_withEmptyMask]
    exact exec_next hv
  case query =>
    obtain ⟨answerOf, hexec⟩ := exists_exec_eq_respond hq
    exact ⟨_, hexec s hv, rfl, fun e => hexec { s with eqMask := e } hv⟩
  case exchange =>
    obtain ⟨answerOf, hexec⟩ := exists_exec_eq_respond hq
    refine ⟨drainStep s, respond (answerOf s.emptyMask) s, _, _, exec_next hv,
      hexec _ ((drainStep_qValid s).trans hv), hexec s hv, exec_next hv, ?_⟩
    simp [drainStep_resp, drainStep_eqMask, drainStep_emptyMask, drainStep_qValid]

end Sys2Proof.Machine

/-! PROOFS. The statements about what can stop a command and a run: the empty set of exceptions, the one
refusal, and the mark it leaves on one block of a system (spec/60_exceptions.md R110, R118, R121). -/

namespace Sys2Proof.Machine

/-! ### The empty set of exceptions (R110) -/

/-- Settles O54: there is no fault for an outcome to carry, and the answer on an empty mask is `none`. -/
theorem noCommandRaisesAnException : Obligations.NoCommandRaisesAnException :=
  ⟨fun _ _ f => (nomatch f), fun _ f => (nomatch f), fun _ _ (f : Fault) => (nomatch f),
    fun g tag s => ⟨_, exec_load g tag s⟩, fun i _ hv => exists_exec_eq_next_of_valid i hv,
    fun _ hv hmask => (answer_fste_eq_none_iff hv).mpr hmask,
    fun _ hv hmask => (answer_next_eq_iff hv).mpr (lowestSlot_eq_none_iff.mpr hmask)⟩

/-! ### The one refusal (R118) -/

/-- A refused run is refused however much longer it is made (log entry 8). -/
theorem run_add_of_refused {n : Nat} {s : State} {r : Refusal}
    (h : Host.Core.run core n s = .refused r) (m : Nat) :
    Host.Core.run core (n + m) s = .refused r := by
  induction n generalizing s with
  | zero => cases (run_zero s).symm.trans h
  | succ n ih =>
    rw [Nat.succ_add]
    cases e : step s with
    | next t =>
      rw [run_succ_of_next e] at h ⊢
      exact ih h
    | fault f => cases f
    | refused r' =>
      rw [run_succ_of_refused e] at h ⊢
      exact h

/-- Settles O55: the admission test is the one place that refuses, and it tests `q_valid` alone. -/
theorem onlyAQueryBeforeLoadIsRefused : Obligations.OnlyAQueryBeforeLoadIsRefused := by
  refine ⟨fun i s hi hv => exec_of_noLoad_of_invalid hi hv, fun i s r h => ?_,
    fun n m s r h => run_add_of_refused h m⟩
  obtain ⟨hi, hv, hr⟩ := exec_eq_refused h
  exact ⟨hr, hv, noLoad_singleton_iff.mp hi⟩

/-! ### The refusal mark of a block (R118, R121, R141) -/

theorem steps_succ (n : Nat) (b : Block) : b.steps (n + 1) = b.step.steps n := rfl

/-- No step takes the mark off a block: a refusal leaves it lost, and whatever else it takes leaves it as
it was or marked. -/
theorem isMarked_step {b : Block} (h : b.isMarked = true) : b.step.isMarked = true := by
  match b, h with
  | .marked s, _ =>
    cases e : step s with
    | next t => rw [marked_step_of_next e]; rfl
    | fault f => cases f
    | refused r => rw [marked_step_of_refused e]; rfl
  | .lost [] n, _ => rfl
  | .lost (.reset :: rest) n, _ => rfl
  | .lost (.command w :: rest) n, _ =>
    obtain ⟨g, tag, hload⟩ | hquery := load_or_noLoad (decode w)
    · rw [lost_step_load hload]; rfl
    · rw [lost_step_query (hquery _ List.mem_cons_self)]; rfl

/-- The mark stays for the rest of the block's run (R118). -/
theorem isMarked_steps (n : Nat) {b : Block} (h : b.isMarked = true) :
    (b.steps n).isMarked = true := by
  induction n generalizing b with
  | zero => exact h
  | succ n ih => exact ih (isMarked_step h)

/-- A block by itself goes with the run of the one-block machine: it is in the run's state while no
command has been refused, and marked once one has. -/
theorem running_steps_cases (n : Nat) (s : State) :
    (∃ t : State, Host.Core.run core n s = .next t ∧ (Block.running s).steps n = .running t) ∨
      ∃ r, Host.Core.run core n s = .refused r ∧ ((Block.running s).steps n).isMarked = true := by
  induction n generalizing s with
  | zero => exact .inl ⟨s, rfl, rfl⟩
  | succ n ih =>
    rw [steps_succ]
    cases e : step s with
    | next t =>
      rw [run_succ_of_next e, running_step_of_next e]
      exact ih t
    | fault f => cases f
    | refused r =>
      rw [running_step_of_refused e]
      exact .inr ⟨r, run_succ_of_refused e n, isMarked_steps n rfl⟩

/-- A block by itself is unmarked, in the state `t`, exactly when the one-block run ends there. -/
theorem running_steps_eq_running_iff {n : Nat} {s t : State} :
    (Block.running s).steps n = .running t ↔ Host.Core.run core n s = .next t := by
  obtain ⟨u, hrun, hblock⟩ | ⟨r, hrun, hmark⟩ := running_steps_cases n s
  · rw [hrun, hblock]
    constructor
    · rintro ⟨⟩
      rfl
    · rintro ⟨⟩
      rfl
  · rw [hrun]
    refine ⟨fun hblock => ?_, nofun⟩
    rw [hblock] at hmark
    cases hmark

/-- A block by itself is marked exactly when the one-block run is refused. -/
theorem isMarked_running_steps_iff {n : Nat} {s : State} :
    ((Block.running s).steps n).isMarked = true ↔ ∃ r, Host.Core.run core n s = .refused r := by
  obtain ⟨u, hrun, hblock⟩ | ⟨r, hrun, hmark⟩ := running_steps_cases n s
  · rw [hrun, hblock]
    exact ⟨nofun, nofun⟩
  · exact ⟨fun _ => ⟨r, hrun⟩, fun _ => hmark⟩

/-- Settles O60: a block goes with its one-block run until the refusal, no step takes the mark off, and a
step of one position leaves every other. -/
theorem refusalMarksOneBlockForTheRestOfItsRun :
    Obligations.RefusalMarksOneBlockForTheRestOfItsRun := by
  refine ⟨fun n s t => running_steps_eq_running_iff, fun n s => isMarked_running_steps_iff,
    fun n b h => isMarked_steps n h, fun s t h => marked_step_of_next h,
    fun rest n => ⟨_, lost_step_reset rest n, rfl, rfl⟩, fun sys j k s r hjk _ _ => ?_⟩
  rw [stepAt_getElem?_self, stepAt_getElem?_ne hjk]

end Sys2Proof.Machine

/-! PROOFS. The statements about reset, whole runs and hazards: what a reset event loses, which runs are
good, and commands that follow a `LOAD` at once (spec/70_reset_and_hazards.md). -/

namespace Sys2Proof.Machine

/-! ### Reset events (R130) -/

/-- Settles O7: the step leaves `q_valid` 0, where the admission test refuses each of the three queries. -/
theorem resetEventLosesTheHeldQuery : Obligations.ResetEventLosesTheHeldQuery := by
  intro s rest hp
  have hv : (takeReset { s with pending := rest }).qValid = false := rfl
  have hrefused (i : Instr) (hi : i = .anye ∨ i = .fste ∨ i = .next) :=
    exec_of_noLoad_of_invalid (noLoad_singleton_iff.mpr hi) hv
  exact ⟨_, step_of_reset hp, hv, rfl, hrefused _ (.inl rfl), hrefused _ (.inr (.inl rfl)),
    hrefused _ (.inr (.inr rfl))⟩

/-! ### The host's duty, input by input (R132) -/

/-- A `LOAD` fulfils the duty, whether or not a query is held. -/
theorem hostDisciplined_load {w : CommandWord} {g : Group} {tag : Byte}
    (h : decode w = .load g tag) (valid : Bool) (rest : List Input) :
    hostDisciplined valid (.command w :: rest) = hostDisciplined true rest := by
  simp only [hostDisciplined, h]

/-- With `q_valid` 1 the duty asks nothing of the next command. -/
theorem hostDisciplined_true_command (w : CommandWord) (rest : List Input) :
    hostDisciplined true (.command w :: rest) = hostDisciplined true rest := by
  obtain ⟨g, tag, h⟩ | h := load_or_noLoad (decode w)
  · exact hostDisciplined_load h true rest
  · obtain h | h | h := noLoad_singleton_iff.mp h <;> simp [hostDisciplined, h]

/-- A query with `q_valid` 0 breaks the duty. -/
theorem hostDisciplined_false_query {w : CommandWord} (h : NoLoad [decode w]) (rest : List Input) :
    hostDisciplined false (.command w :: rest) = false := by
  obtain h | h | h := noLoad_singleton_iff.mp h <;> simp [hostDisciplined, h]

/-- A command that completes leaves the host as much of its duty as it had. -/
theorem hostDisciplined_of_exec_eq_next {w : CommandWord} {s t : State}
    (h : exec (decode w) s = .next t) (rest : List Input) :
    hostDisciplined s.qValid (.command w :: rest) = hostDisciplined t.qValid rest := by
  rw [qValid_of_exec_eq_next h]
  obtain ⟨g, tag, hload, -⟩ | ⟨hv, -⟩ := exec_eq_next h
  · exact hostDisciplined_load hload _ rest
  · rw [hv]
    exact hostDisciplined_true_command w rest

/-! ### The host's duty along a step -/

/-- A step that goes on has taken the oldest input, if there is one, and no other (R50). -/
theorem pending_of_step_eq_next {s t : State} (h : step s = .next t) :
    t.pending = s.pending.tail := by
  obtain ⟨hp, e⟩ | ⟨rest, hp, e⟩ | ⟨w, rest, hp, e⟩ := step_cases s
  · cases e.symm.trans h
    rw [hp]
    rfl
  · cases e.symm.trans h
    rw [hp]
    rfl
  · rw [hp]
    exact (exec_keeps_port (e.symm.trans h)).1

/-- A step that goes on keeps the discipline, and makes none where there was none. -/
theorem hostDisciplined_of_step_eq_next {s t : State} (h : step s = .next t) :
    hostDisciplined s.qValid s.pending = hostDisciplined t.qValid t.pending := by
  obtain ⟨-, e⟩ | ⟨rest, hp, e⟩ | ⟨w, rest, hp, e⟩ := step_cases s
  · cases e.symm.trans h
    rfl
  · cases e.symm.trans h
    rw [hp]
    rfl
  · have hexec := e.symm.trans h
    rw [hp, (exec_keeps_port hexec).1]
    exact hostDisciplined_of_exec_eq_next hexec rest

/-- Only a host that broke its duty meets a refusal. -/
theorem hostDisciplined_of_step_eq_refused {s : State} {r : Refusal} (h : step s = .refused r) :
    hostDisciplined s.qValid s.pending = false := by
  obtain ⟨-, e⟩ | ⟨rest, -, e⟩ | ⟨w, rest, hp, e⟩ := step_cases s
  · cases e.symm.trans h
  · cases e.symm.trans h
  · obtain ⟨hquery, hv, -⟩ := exec_eq_refused (e.symm.trans h)
    rw [show s.qValid = false from hv, hp]
    exact hostDisciplined_false_query hquery rest

/-! ### Good runs (R141) -/

/-- A run is good exactly when it is good from its second state on. -/
theorem goodRun_iff_of_step_eq_next {s t : State} (h : step s = .next t) :
    GoodRun s ↔ GoodRun t := by
  constructor
  · intro hs n
    rw [← run_succ_of_next h n]
    exact hs (n + 1)
  · rintro ht (_ | n)
    · exact nofun
    · rw [run_succ_of_next h n]
      exact ht n

theorem not_goodRun_of_step_eq_refused {s : State} {r : Refusal} (h : step s = .refused r) :
    ¬ GoodRun s := fun hs => hs 1 r (run_succ_of_refused h 0)

theorem goodRun_of_no_input {s : State} (h : s.pending = []) : GoodRun s := by
  intro n r
  rw [run_of_no_input h]
  exact nofun

/-- The steps of a run take the inputs one after another: a step that goes on hands on the discipline
as it stands, and a refused one shows that it was broken. -/
theorem goodRun_iff_hostDisciplined (s : State) :
    GoodRun s ↔ hostDisciplined s.qValid s.pending = true := by
  induction hp : s.pending generalizing s with
  | nil => exact iff_of_true (goodRun_of_no_input hp) rfl
  | cons i rest ih =>
    rw [← hp]
    cases e : step s with
    | next t =>
      have ht : t.pending = rest := by rw [pending_of_step_eq_next e, hp, List.tail_cons]
      rw [goodRun_iff_of_step_eq_next e, hostDisciplined_of_step_eq_next e, ht]
      exact ih t ht
    | fault f => cases f
    | refused r =>
      refine iff_of_false (not_goodRun_of_step_eq_refused e) ?_
      rw [hostDisciplined_of_step_eq_refused e]
      exact Bool.false_ne_true

/-- A run of `n` steps that is not refused has taken the `n` oldest inputs (R50). -/
theorem pending_of_run_eq_next {n : Nat} {s t : State} (h : Host.Core.run core n s = .next t) :
    t.pending = s.pending.drop n := by
  induction n generalizing s with
  | zero =>
    cases (run_zero s).symm.trans h
    rfl
  | succ n ih =>
    cases e : step s with
    | next s' =>
      rw [run_succ_of_next e] at h
      rw [ih h, pending_of_step_eq_next e, List.drop_tail]
    | fault f => cases f
    | refused r => cases (run_succ_of_refused e n).symm.trans h

theorem GoodRun.exists_run_eq_next {s : State} (hs : GoodRun s) (n : Nat) :
    ∃ t : State, Host.Core.run core n s = .next t := by
  obtain ⟨t, h, -⟩ | ⟨r, h, -⟩ := running_steps_cases n s
  · exact ⟨t, h⟩
  · exact absurd h (hs n r)

/-- Settles O58: each step hands the discipline on, and a run of as many steps as there are inputs takes
them all. -/
theorem runIsGoodExactlyWhenLoadComesFirst : Obligations.RunIsGoodExactlyWhenLoadComesFirst := by
  refine fun s => ⟨goodRun_iff_hostDisciplined s, fun hs => ?_⟩
  obtain ⟨t, ht⟩ := hs.exists_run_eq_next s.pending.length
  exact ⟨t, ht, by rw [pending_of_run_eq_next ht, List.drop_length]⟩

/-! ### No latency (R139) -/

/-- Settles O41: the queries answer from the masks of the state the `LOAD` leaves. -/
theorem nextCommandSeesTheNewMasks : Obligations.NextCommandSeesTheNewMasks := by
  intro g tag s
  have hanye : answer .anye (loadResult g tag s) = some (.bool (emptyFlags g != 0#64)) :=
    answer_anye rfl
  rw [bne, beq_eq_decide, ← decide_not] at hanye
  exact ⟨_, exec_load_eq_loadResult g tag s, answer_next rfl, hanye, answer_fste rfl⟩

end Sys2Proof.Machine

/-! PROOFS. The two statements about fixed values: what reset and a reset event leave in the state
(spec/10_state.md R33, spec/70_reset_and_hazards.md R130), and the command words written out in
spec/95_test_vectors.md section 2.5. -/

namespace Sys2Proof.Machine

/-- Settles O6: a reset event is taken by `takeReset`, which draws the masks that `resetCount` numbers and
counts itself. -/
theorem resetLeavesFreeMasks : Obligations.ResetLeavesFreeMasks := by
  refine ⟨reset_qValid, reset_resp, reset_pending, rfl, rfl, fun s rest hp => ?_⟩
  exact ⟨_, step_of_reset hp, takeReset_qValid _, takeReset_eqMask _, takeReset_emptyMask _,
    takeReset_resp _, takeReset_resetCount _⟩

end Sys2Proof.Machine

namespace Sys2Proof

/-- Settles O25: of a `LOAD` word `op` and both operand fields are read, of the other three words `op`
alone, whatever stands below it (R60). -/
theorem sampleWordsDecode : Obligations.SampleWordsDecode := by
  refine ⟨decode_eq_load_iff.mpr ⟨?_, ?_, ?_⟩, decode_eq_load_iff.mpr ⟨?_, ?_, ?_⟩,
    decode_eq_anye_iff.mpr ?_, decode_eq_fste_iff.mpr ?_, decode_eq_next_iff.mpr ?_⟩ <;> decide

end Sys2Proof
